-- ==== Sys2Proof/Word.lean ====
section
/-! DEFINITION. The word types of the block: bytes and 16-bit operands (00_scope R8). No value of the block is signed. -/

namespace Sys2Proof

/-- `u8`: one byte of the register array, or one byte of a command (R8). -/
abbrev Byte := BitVec 8

/-- `u16`: a 16-bit operand or a decoded 12-bit quantity (R8). -/
abbrev U16 := BitVec 16

end Sys2Proof
end

