-- ==== Sys2Proof/Syntax.lean ====
section
/-! DEFINITION. The commands of the block: one constructor for each row of the opcode map (30_encoding R75), its fields
the operands of the row's format (R72) as the command carries them. Booleans and variant codes stand as the bytes of
the command, so that a term can also spell what the checks of R74 refuse. The length field n16 is the length of the
data list. -/

namespace Sys2Proof

/-- A decoded command: "a syntax term with its fields as in rule R72" (R81). -/
inductive Instr where
  -- codec (40_codec)
  | decodeU12 (hi lo : Byte)
  | encodeU12 (v : U16)
  | decodeStatus (b : Byte)
  | encodeStatus (d w s : Byte)
  | decodeConfig (hi lo : Byte)
  | encodeConfig (pm hyst outs pwmf sf fth wd : Byte)
  | decodeBurnCount (b : Byte)
  -- register-file port (41_register_port)
  | rfWrite (start : Byte) (data : List Byte)
  | rfRead (start : Byte) (count : U16)
  -- bus adapter (42_bus_adapter)
  | busWrite (dev : Byte) (data : List Byte)
  | busWriteThenRead (dev : Byte) (data : List Byte) (m : U16)
  | busTransaction (dev : Byte) (data : List Byte)
  -- control surface (43_control)
  | setRawAngle (v : U16)
  | setStatus (d w s : Byte)
  | setGain (g : Byte)
  | setMagnitude (v : U16)
  -- typed accessors (44_typed_access)
  | getBurnCount
  | getZeroPosition
  | setZeroPosition (v : U16)
  | getMaxPosition
  | setMaxPosition (v : U16)
  | getMaxAngle
  | setMaxAngle (v : U16)
  | getConfig
  | setConfig (pm hyst outs pwmf sf fth wd : Byte)
  | getStatus
  | getRawAngle
  | getAngle
  | getGain
  | getMagnitude
  | commitAngle
  | commitSettings
  deriving DecidableEq, Repr

end Sys2Proof
end

