-- ==== Sys2Proof/Decode.lean ====
section
/-! DEFINITION. The command format (30_encoding): the opcode map, the decoder with its three verdicts, the length of a
command, and the encoder. -/

namespace Sys2Proof

/-- `be16(hi, lo)`: two bytes combined big-endian (00_scope R9). -/
def be16 (hi lo : Byte) : U16 := hi ++ lo

/-- `hi8(v)`: the high byte of a 16-bit value (R9). -/
def hi8 (v : U16) : Byte := v.extractLsb' 8 8

/-- `lo8(v)`: the low byte of a 16-bit value (R9). -/
def lo8 (v : U16) : Byte := v.extractLsb' 0 8

/-- The operations of the opcode map, by name (R75). -/
inductive Opcode where
  | decodeU12 | encodeU12 | decodeStatus | encodeStatus | decodeConfig | encodeConfig | decodeBurnCount
  | rfWrite | rfRead
  | busWrite | busWriteThenRead | busTransaction
  | setRawAngle | setStatus | setGain | setMagnitude
  | getBurnCount | getZeroPosition | setZeroPosition | getMaxPosition | setMaxPosition | getMaxAngle | setMaxAngle
  | getConfig | setConfig | getStatus | getRawAngle | getAngle | getGain | getMagnitude | commitAngle | commitSettings
  deriving DecidableEq, Repr

/-- The operand formats (R72). -/
inductive Format where
  | F0 | F1 | F2 | FV | FS | FC | FRW | FRR | FBW | FBWR | FBT
  deriving DecidableEq, Repr

/-- A row of the opcode map: byte 0, matched on all 8 bits, and the operand format (R75). -/
structure OpcodeRow where
  byte : Byte
  op : Opcode
  format : Format
  deriving DecidableEq, Repr

/-- The opcode map (R75). -/
def opcodeMap : List OpcodeRow :=
  [⟨0x10, .decodeU12, .F2⟩, ⟨0x11, .encodeU12, .FV⟩, ⟨0x12, .decodeStatus, .F1⟩, ⟨0x13, .encodeStatus, .FS⟩,
   ⟨0x14, .decodeConfig, .F2⟩, ⟨0x15, .encodeConfig, .FC⟩, ⟨0x16, .decodeBurnCount, .F1⟩] ++
  [⟨0x20, .rfWrite, .FRW⟩, ⟨0x21, .rfRead, .FRR⟩] ++
  [⟨0x30, .busWrite, .FBW⟩, ⟨0x31, .busWriteThenRead, .FBWR⟩, ⟨0x32, .busTransaction, .FBT⟩] ++
  [⟨0x40, .setRawAngle, .FV⟩, ⟨0x41, .setStatus, .FS⟩, ⟨0x42, .setGain, .F1⟩, ⟨0x43, .setMagnitude, .FV⟩] ++
  [⟨0x50, .getBurnCount, .F0⟩, ⟨0x51, .getZeroPosition, .F0⟩, ⟨0x52, .setZeroPosition, .FV⟩,
   ⟨0x53, .getMaxPosition, .F0⟩, ⟨0x54, .setMaxPosition, .FV⟩, ⟨0x55, .getMaxAngle, .F0⟩, ⟨0x56, .setMaxAngle, .FV⟩,
   ⟨0x57, .getConfig, .F0⟩, ⟨0x58, .setConfig, .FC⟩, ⟨0x59, .getStatus, .F0⟩, ⟨0x5A, .getRawAngle, .F0⟩,
   ⟨0x5B, .getAngle, .F0⟩, ⟨0x5C, .getGain, .F0⟩, ⟨0x5D, .getMagnitude, .F0⟩, ⟨0x5E, .commitAngle, .F0⟩,
   ⟨0x5F, .commitSettings, .F0⟩]

/-- The row of the opcode map that a byte 0 selects, if any (R75, R76). -/
def rowOfByte (b : Byte) : Option OpcodeRow := opcodeMap.find? fun r => r.byte == b

/-- The row of an operation. -/
def rowOf (o : Opcode) : Option OpcodeRow := opcodeMap.find? fun r => r.op == o

/-- The opcode byte of an operation (R75). -/
def Opcode.byte (o : Opcode) : Byte := ((rowOf o).map OpcodeRow.byte).getD 0

/-- What the decoder answers on a command stream (R81). -/
inductive Verdict where
  | cmd (i : Instr) (rest : List Byte)
  | invalid (op : Byte)
  | truncated
  deriving DecidableEq, Repr

/-- F1: `op, b` (R72). The argument is the operation's constructor. -/
def parseF1 (mk : Byte → Instr) : List Byte → Verdict
  | b :: rest => .cmd (mk b) rest
  | _ => .truncated

/-- F2: `op, hi, lo` (R72). -/
def parseF2 (mk : Byte → Byte → Instr) : List Byte → Verdict
  | hi :: lo :: rest => .cmd (mk hi lo) rest
  | _ => .truncated

/-- FV: `op, v16`, the high byte first (R72, R73). -/
def parseFV (mk : U16 → Instr) : List Byte → Verdict
  | hi :: lo :: rest => .cmd (mk (be16 hi lo)) rest
  | _ => .truncated

/-- FS: `op, d, w, s` (R72). -/
def parseFS (mk : Byte → Byte → Byte → Instr) : List Byte → Verdict
  | d :: w :: s :: rest => .cmd (mk d w s) rest
  | _ => .truncated

/-- FC: `op, pm, hyst, outs, pwmf, sf, fth, wd` (R72). -/
def parseFC (mk : Byte → Byte → Byte → Byte → Byte → Byte → Byte → Instr) : List Byte → Verdict
  | pm :: hyst :: outs :: pwmf :: sf :: fth :: wd :: rest => .cmd (mk pm hyst outs pwmf sf fth wd) rest
  | _ => .truncated

/-- FRW, FBW and FBT: `op, start or dev, n16, data[n]` (R72). -/
def parseBlock (mk : Byte → List Byte → Instr) : List Byte → Verdict
  | b :: nh :: nl :: rest =>
    let n := (be16 nh nl).toNat
    if n ≤ rest.length then .cmd (mk b (rest.take n)) (rest.drop n) else .truncated
  | _ => .truncated

/-- FRR: `op, start, count16` (R72). -/
def parseFRR (mk : Byte → U16 → Instr) : List Byte → Verdict
  | start :: ch :: cl :: rest => .cmd (mk start (be16 ch cl)) rest
  | _ => .truncated

/-- FBWR: `op, dev, n16, data[n], m16` (R72). -/
def parseFBWR (mk : Byte → List Byte → U16 → Instr) : List Byte → Verdict
  | dev :: nh :: nl :: rest =>
    let n := (be16 nh nl).toNat
    match rest.drop n with
    | mh :: ml :: rest' => .cmd (mk dev (rest.take n) (be16 mh ml)) rest'
    | _ => .truncated
  | _ => .truncated

/-- The operands of each operation, read in its format (R72, R75). -/
def parseOperands : Opcode → List Byte → Verdict
  | .decodeU12 => parseF2 .decodeU12
  | .encodeU12 => parseFV .encodeU12
  | .decodeStatus => parseF1 .decodeStatus
  | .encodeStatus => parseFS .encodeStatus
  | .decodeConfig => parseF2 .decodeConfig
  | .encodeConfig => parseFC .encodeConfig
  | .decodeBurnCount => parseF1 .decodeBurnCount
  | .rfWrite => parseBlock .rfWrite
  | .rfRead => parseFRR .rfRead
  | .busWrite => parseBlock .busWrite
  | .busWriteThenRead => parseFBWR .busWriteThenRead
  | .busTransaction => parseBlock .busTransaction
  | .setRawAngle => parseFV .setRawAngle
  | .setStatus => parseFS .setStatus
  | .setGain => parseF1 .setGain
  | .setMagnitude => parseFV .setMagnitude
  | .getBurnCount => .cmd .getBurnCount
  | .getZeroPosition => .cmd .getZeroPosition
  | .setZeroPosition => parseFV .setZeroPosition
  | .getMaxPosition => .cmd .getMaxPosition
  | .setMaxPosition => parseFV .setMaxPosition
  | .getMaxAngle => .cmd .getMaxAngle
  | .setMaxAngle => parseFV .setMaxAngle
  | .getConfig => .cmd .getConfig
  | .setConfig => parseFC .setConfig
  | .getStatus => .cmd .getStatus
  | .getRawAngle => .cmd .getRawAngle
  | .getAngle => .cmd .getAngle
  | .getGain => .cmd .getGain
  | .getMagnitude => .cmd .getMagnitude
  | .commitAngle => .cmd .commitAngle
  | .commitSettings => .cmd .commitSettings

/-- The decoder: reads one command from the front of a stream. Total; an unassigned byte 0 is `invalid` (R76), a stream
that ends inside a command is `truncated` (R78, R81). -/
def decode : List Byte → Verdict
  | [] => .truncated
  | b :: operands =>
    match rowOfByte b with
    | none => .invalid b
    | some r => parseOperands r.op operands

/-- An item of a program (60_exceptions R240: "a command decoded by rule R81", which may be Invalid or Truncated). -/
inductive Fetched where
  | cmd (i : Instr)
  | invalid (op : Byte)
  | truncated
  deriving DecidableEq, Repr

/-- The list of commands in a byte stream, at most `fuel` of them. After an Invalid or Truncated item the stream cannot be
read on, so it is the last (DEDUCED from R78, log 10). -/
def commandsUpTo : Nat → List Byte → List Fetched
  | 0, _ => []
  | _ + 1, [] => []
  | fuel + 1, b :: bs =>
    match decode (b :: bs) with
    | .cmd i rest => .cmd i :: commandsUpTo fuel rest
    | .invalid op => [.invalid op]
    | .truncated => [.truncated]

/-- `prog_k` as a list of commands, from the concatenation of their encodings (R71). Each command takes at least one
byte, so the stream's length is fuel enough. -/
def commands (stream : List Byte) : List Fetched := commandsUpTo stream.length stream

/-- The operation of a command. -/
def Instr.opcode : Instr → Opcode
  | .decodeU12 _ _ => .decodeU12
  | .encodeU12 _ => .encodeU12
  | .decodeStatus _ => .decodeStatus
  | .encodeStatus _ _ _ => .encodeStatus
  | .decodeConfig _ _ => .decodeConfig
  | .encodeConfig _ _ _ _ _ _ _ => .encodeConfig
  | .decodeBurnCount _ => .decodeBurnCount
  | .rfWrite _ _ => .rfWrite
  | .rfRead _ _ => .rfRead
  | .busWrite _ _ => .busWrite
  | .busWriteThenRead _ _ _ => .busWriteThenRead
  | .busTransaction _ _ => .busTransaction
  | .setRawAngle _ => .setRawAngle
  | .setStatus _ _ _ => .setStatus
  | .setGain _ => .setGain
  | .setMagnitude _ => .setMagnitude
  | .getBurnCount => .getBurnCount
  | .getZeroPosition => .getZeroPosition
  | .setZeroPosition _ => .setZeroPosition
  | .getMaxPosition => .getMaxPosition
  | .setMaxPosition _ => .setMaxPosition
  | .getMaxAngle => .getMaxAngle
  | .setMaxAngle _ => .setMaxAngle
  | .getConfig => .getConfig
  | .setConfig _ _ _ _ _ _ _ => .setConfig
  | .getStatus => .getStatus
  | .getRawAngle => .getRawAngle
  | .getAngle => .getAngle
  | .getGain => .getGain
  | .getMagnitude => .getMagnitude
  | .commitAngle => .commitAngle
  | .commitSettings => .commitSettings

/-- A 16-bit operand as its two bytes, the high byte first (R71). -/
def bytes16 (v : U16) : List Byte := [hi8 v, lo8 v]

/-- The length field `n16` of a data list (R72). -/
def n16 (data : List Byte) : List Byte := bytes16 (BitVec.ofNat 16 data.length)

/-- The operand bytes of a command, in its format's layout (R72). -/
def operandBytes : Instr → List Byte
  | .decodeU12 hi lo => [hi, lo]
  | .encodeU12 v => bytes16 v
  | .decodeStatus b => [b]
  | .encodeStatus d w s => [d, w, s]
  | .decodeConfig hi lo => [hi, lo]
  | .encodeConfig pm hyst outs pwmf sf fth wd => [pm, hyst, outs, pwmf, sf, fth, wd]
  | .decodeBurnCount b => [b]
  | .rfWrite start data => start :: n16 data ++ data
  | .rfRead start count => start :: bytes16 count
  | .busWrite dev data => dev :: n16 data ++ data
  | .busWriteThenRead dev data m => dev :: n16 data ++ data ++ bytes16 m
  | .busTransaction dev data => dev :: n16 data ++ data
  | .setRawAngle v => bytes16 v
  | .setStatus d w s => [d, w, s]
  | .setGain g => [g]
  | .setMagnitude v => bytes16 v
  | .getBurnCount => []
  | .getZeroPosition => []
  | .setZeroPosition v => bytes16 v
  | .getMaxPosition => []
  | .setMaxPosition v => bytes16 v
  | .getMaxAngle => []
  | .setMaxAngle v => bytes16 v
  | .getConfig => []
  | .setConfig pm hyst outs pwmf sf fth wd => [pm, hyst, outs, pwmf, sf, fth, wd]
  | .getStatus => []
  | .getRawAngle => []
  | .getAngle => []
  | .getGain => []
  | .getMagnitude => []
  | .commitAngle => []
  | .commitSettings => []

/-- The encoder: the opcode byte of R75 and the operand bytes of R72. -/
def encode (i : Instr) : List Byte := i.opcode.byte :: operandBytes i

/-- The length in bytes of a command of a format, `n` its length field (R72, R78). -/
def Format.length (n : Nat) : Format → Nat
  | .F0 => 1
  | .F1 => 2
  | .F2 => 3
  | .FV => 3
  | .FS => 4
  | .FC => 8
  | .FRW => 4 + n
  | .FRR => 4
  | .FBW => 4 + n
  | .FBWR => 6 + n
  | .FBT => 4 + n

/-- Does the format have a length field `n16` (in bytes 2 and 3 of the command, R72)? -/
def Format.hasLengthField : Format → Bool
  | .FRW | .FBW | .FBWR | .FBT => true
  | .F0 | .F1 | .F2 | .FV | .FS | .FC | .FRR => false

/-- R78: the length of the command at the front of a stream, "from byte 0 and, for the variable formats, from the `n16`
field". None where byte 0 is no opcode, or where the stream ends before the length field does. -/
def commandLength (stream : List Byte) : Option Nat :=
  match stream with
  | [] => none
  | b :: operands =>
    match rowOfByte b with
    | none => none
    | some r =>
      if r.format.hasLengthField then
        match operands with
        | _ :: nh :: nl :: _ => some (r.format.length (be16 nh nl).toNat)
        | _ => none
      else some (r.format.length 0)

/-- The bytes of a word whose bit 0 is the least significant bit of the first byte. -/
def tableBytes : Nat → Nat → List Byte
  | 0, _ => []
  | n + 1, w => BitVec.ofNat 8 w :: tableBytes n (w / 256)

/-- The command whose first `nbits` bits (in whole bytes, the first byte at the front of the stream) are `w` and whose
further bits are 0: extended with zero bytes, or cut, to the command's own length where byte 0 is an opcode (DESIGN CHOICE, log 23). -/
def tableCommand (nbits w : Nat) : List Byte :=
  let given := tableBytes ((nbits + 7) / 8) w
  match commandLength (given ++ List.replicate 4 0) with
  | none => given
  | some n => (given ++ List.replicate n 0).take n

/-- The command the decoder reads from a word of spec/opcode_table.json's numbering, operand bytes beyond it zero. -/
def decodeTableWord (nbits w : Nat) : Option Instr :=
  match decode (tableCommand nbits w) with
  | .cmd i _ => some i
  | .invalid _ => none
  | .truncated => none

end Sys2Proof
end

