-- ==== Sys2Proof/Config.lean ====
section
/-! DEFINITION. The typed values of the codec (00_scope R11, 10_state R33 to R38), the parameters of the block
(00_scope R7), and the constants that the spec leaves open (opaque: nothing can be proved of their value).
The default values of the parameters stand in Machine/Defaults.lean. -/

namespace Sys2Proof

/-- power_mode, PM (R33). -/
inductive PowerMode where
  | NOM | LPM1 | LPM2 | LPM3
  deriving DecidableEq, Repr

/-- hysteresis, HYST (R34). -/
inductive Hysteresis where
  | Off | Lsb1 | Lsb2 | Lsb3
  deriving DecidableEq, Repr

/-- output_stage, OUTS (R35): three variants over four codes. -/
inductive OutputStage where
  | AnalogFull | AnalogReduced | PWM
  deriving DecidableEq, Repr

/-- pwm_frequency, PWMF (R36). -/
inductive PwmFrequency where
  | Hz115 | Hz230 | Hz460 | Hz920
  deriving DecidableEq, Repr

/-- slow_filter, SF (R37). -/
inductive SlowFilter where
  | X16 | X8 | X4 | X2
  deriving DecidableEq, Repr

/-- fast_filter_threshold, FTH (R38). -/
inductive FastFilterThreshold where
  | SlowOnly | Lsb6 | Lsb7 | Lsb9 | Lsb18 | Lsb21 | Lsb24 | Lsb10
  deriving DecidableEq, Repr

/-- MagnetStatus (R11, R40): all eight combinations are representable. -/
structure MagnetStatus where
  detected : Bool
  tooWeak : Bool
  tooStrong : Bool
  deriving DecidableEq, Repr

/-- Configuration (R11, R32 to R39). -/
structure Configuration where
  powerMode : PowerMode
  hysteresis : Hysteresis
  outputStage : OutputStage
  pwmFrequency : PwmFrequency
  slowFilter : SlowFilter
  fastFilterThreshold : FastFilterThreshold
  watchdog : Bool
  deriving DecidableEq, Repr

/-- FIELD_CODES (R7, D4): for each multi-bit field, the variant of each code, code 0 first. The output stage has three
codes of its own; its fourth code 0b11 decodes as code 0b00 does (R35), whatever the table. -/
structure FieldCodes where
  powerMode : Vector PowerMode 4
  hysteresis : Vector Hysteresis 4
  outputStage : Vector OutputStage 3
  pwmFrequency : Vector PwmFrequency 4
  slowFilter : Vector SlowFilter 4
  fastFilterThreshold : Vector FastFilterThreshold 8
  deriving DecidableEq, Repr

/-- D4, "Any bijective table on the defined variants is admitted": a table is bijective when no variant stands at two
codes. (Each table has as many codes as its field has variants, so every variant then has a code.) -/
abbrev FieldCodes.Bijective (t : FieldCodes) : Prop :=
  t.powerMode.toList.Nodup ∧ t.hysteresis.toList.Nodup ∧ t.outputStage.toList.Nodup ∧
  t.pwmFrequency.toList.Nodup ∧ t.slowFilter.toList.Nodup ∧ t.fastFilterThreshold.toList.Nodup

/-- The parameters a session fixes before it starts and never changes (R7, R273). TRANSPORT_FAIL and N_AGENTS are held in
State itself, as the list of draws and the list of agents; MEM_SIZE, ADDR_WIDTH, U12_MASK and MAX_LEN are fixed. -/
structure Params where
  /-- DEVICE_ADDRESS, a 7-bit bus address. -/
  deviceAddress : BitVec 7
  /-- DEFAULT_GAIN, open: the reset value of the gain byte. -/
  defaultGain : Byte
  /-- FIELD_CODES. -/
  fieldCodes : FieldCodes
  deriving DecidableEq, Repr

/-- MAX_LEN, the largest byte count a command can carry (R7, D24). -/
def Config.maxLen : Nat := 65535

/-- DEFAULT_GAIN of the reset state: open, "moderate gain" is all the source says (R7, R271, D7). Free value, log 2. -/
opaque Config.defaultGain : Byte

/-- N_AGENTS of the reset state is one more than this: open, at least 1 (R7, R26, D2). Free value, log 3. -/
opaque Config.extraAgents : Nat

/-- The scheduler's pick number n, once the picks given in State are used up: the interleaving is free (R58, I8).
Free value, log 6. -/
opaque Config.freePick : Nat → Nat

end Sys2Proof
end

