-- ==== Sys2Proof/Machine/Defaults.lean ====
section
/-! DEFINITION. The parameters' values where a session does not override them (00_scope R7, 10_state R33 to R38), and the
register map (10_state R24). -/

namespace Sys2Proof.Machine

/-- The default FIELD_CODES (R33 to R38, D4, log 4). -/
def defaultFieldCodes : FieldCodes where
  powerMode := #v[.NOM, .LPM1, .LPM2, .LPM3]
  hysteresis := #v[.Off, .Lsb1, .Lsb2, .Lsb3]
  outputStage := #v[.AnalogFull, .AnalogReduced, .PWM]
  pwmFrequency := #v[.Hz115, .Hz230, .Hz460, .Hz920]
  slowFilter := #v[.X16, .X8, .X4, .X2]
  fastFilterThreshold := #v[.SlowOnly, .Lsb6, .Lsb7, .Lsb9, .Lsb18, .Lsb21, .Lsb24, .Lsb10]

/-- The default DEVICE_ADDRESS, 0x36 (R7). -/
def defaultDeviceAddress : BitVec 7 := 0x36

/-- The parameters of the reset state: the defaults, and the open DEFAULT_GAIN (R7). -/
def defaultParams : Params where
  deviceAddress := defaultDeviceAddress
  defaultGain := Config.defaultGain
  fieldCodes := defaultFieldCodes

/-- The named registers (R24). -/
inductive Register where
  | burnCounter | zeroPosition | maxPosition | maxAngle | configuration | status
  | rawAngle | filteredAngle | gain | magnitude | commitTrigger
  deriving DecidableEq, Repr

/-- The address of the register, of its high byte where it has two (R24). -/
def Register.base : Register → Nat
  | .burnCounter => 0x00
  | .zeroPosition => 0x01
  | .maxPosition => 0x03
  | .maxAngle => 0x05
  | .configuration => 0x07
  | .status => 0x0B
  | .rawAngle => 0x0C
  | .filteredAngle => 0x0E
  | .gain => 0x1A
  | .magnitude => 0x1B
  | .commitTrigger => 0xFF

/-- The register's width in bytes (R24). -/
def Register.width : Register → Nat
  | .burnCounter => 1
  | .zeroPosition => 2
  | .maxPosition => 2
  | .maxAngle => 2
  | .configuration => 2
  | .status => 1
  | .rawAngle => 2
  | .filteredAngle => 2
  | .gain => 1
  | .magnitude => 2
  | .commitTrigger => 1

/-- Access on the chip (R24). The simulated array does not enforce it (R22, D19). -/
inductive Access where
  | readOnly | readWrite | writeOnly
  deriving DecidableEq, Repr

/-- The access column of R24. -/
def Register.access : Register → Access
  | .burnCounter => .readOnly
  | .zeroPosition => .readWrite
  | .maxPosition => .readWrite
  | .maxAngle => .readWrite
  | .configuration => .readWrite
  | .status => .readOnly
  | .rawAngle => .readOnly
  | .filteredAngle => .readOnly
  | .gain => .readOnly
  | .magnitude => .readOnly
  | .commitTrigger => .writeOnly

/-- The addresses of a register's bytes, in order (R23, R24). -/
def Register.addresses (r : Register) : List Nat := (List.range r.width).map fun i => r.base + i

end Sys2Proof.Machine
end

