-- ==== Sys2Proof/WellFormed.lean ====
section
/-! DEFINITION. The well-formedness checks of a decoded command (30_encoding R74), by name. -/

namespace Sys2Proof

/-- The named checks of R74, and one of the model's own: `maxLen`, that a data list fits the 16-bit length field it is
encoded with (MAX_LEN, R7 and R140; DEDUCED, log 13). Every command read from bytes passes `maxLen`. -/
inductive Check where
  | bool | pm | hyst | outs | pwmf | sf | fth | dev | bwrLen | maxLen
  deriving DecidableEq, Repr

/-- WF_BOOL: a boolean operand byte is 0x00 or 0x01 (R73, R74). -/
def isBool (b : Byte) : Bool := b.toNat ≤ 1

/-- The list of the one check `c` when its condition fails, else no check. -/
def Check.unless (c : Check) (ok : Bool) : List Check := if ok then [] else [c]

/-- The checks of a configuration's seven operands, those of ENCODE_CONFIG and SET_CONFIG (R74). -/
def configChecks (pm hyst outs pwmf sf fth wd : Byte) : List Check :=
  Check.unless .bool (isBool wd) ++ Check.unless .pm (pm.toNat ≤ 3) ++ Check.unless .hyst (hyst.toNat ≤ 3) ++
  Check.unless .outs (outs.toNat ≤ 2) ++ Check.unless .pwmf (pwmf.toNat ≤ 3) ++ Check.unless .sf (sf.toNat ≤ 3) ++
  Check.unless .fth (fth.toNat ≤ 7)

/-- WF_BOOL on the three operands of ENCODE_STATUS and SET_STATUS (R74). -/
def statusChecks (d w s : Byte) : List Check := Check.unless .bool (isBool d && isBool w && isBool s)

/-- WF_DEV: bit 7 of the device address is 0 (R73, R74). -/
def devChecks (dev : Byte) : List Check := Check.unless .dev (dev.toNat ≤ 0x7F)

/-- The length of a data list is at most MAX_LEN (R7). -/
def lenChecks (data : List Byte) : List Check := Check.unless .maxLen (data.length ≤ Config.maxLen)

/-- All the checks of R74 that the command fails. -/
def Instr.failedChecks : Instr → List Check
  | .decodeU12 _ _ => []
  | .encodeU12 _ => []
  | .decodeStatus _ => []
  | .encodeStatus d w s => statusChecks d w s
  | .decodeConfig _ _ => []
  | .encodeConfig pm hyst outs pwmf sf fth wd => configChecks pm hyst outs pwmf sf fth wd
  | .decodeBurnCount _ => []
  | .rfWrite _ data => lenChecks data
  | .rfRead _ _ => []
  | .busWrite dev data => devChecks dev ++ lenChecks data
  | .busWriteThenRead dev data _ => devChecks dev ++ Check.unless .bwrLen (data.length = 1) ++ lenChecks data
  | .busTransaction dev data => devChecks dev ++ lenChecks data
  | .setRawAngle _ => []
  | .setStatus d w s => statusChecks d w s
  | .setGain _ => []
  | .setMagnitude _ => []
  | .getBurnCount => []
  | .getZeroPosition => []
  | .setZeroPosition _ => []
  | .getMaxPosition => []
  | .setMaxPosition _ => []
  | .getMaxAngle => []
  | .setMaxAngle _ => []
  | .getConfig => []
  | .setConfig pm hyst outs pwmf sf fth wd => configChecks pm hyst outs pwmf sf fth wd
  | .getStatus => []
  | .getRawAngle => []
  | .getAngle => []
  | .getGain => []
  | .getMagnitude => []
  | .commitAngle => []
  | .commitSettings => []

/-- A command is well formed when it passes every check of R74. -/
abbrev Instr.WellFormed (i : Instr) : Prop := i.failedChecks = []

end Sys2Proof
end

