-- ==== Sys2Proof/Machine/State.lean ====
section
/-! DEFINITION. The state of the block (10_state R20 to R31), the results its commands log, and the state at the start of a
session (R45, R46, 70_reset R270, R273). Plain data throughout. -/

namespace Sys2Proof.Machine

/-- The value of an `Ok` result (00_scope R11, 10_state R28). -/
inductive Value where
  /-- `Ok(())`, the result of a command with no value. -/
  | unit
  /-- A burn count or a gain. -/
  | u8 (v : Byte)
  /-- A decoded 12-bit quantity. -/
  | u16 (v : U16)
  /-- Bytes read, or bytes encoded. -/
  | bytes (bs : List Byte)
  | status (m : MagnetStatus)
  | config (c : Configuration)
  deriving DecidableEq, Repr

/-- The only error result, TransportFailure (60_exceptions R242). -/
inductive ErrorKind where
  | transportFailure
  deriving DecidableEq, Repr

/-- A logged result (R11, R28, R29). The fault Unimplemented is not logged (R241). -/
inductive Result where
  | ok (v : Value)
  | err (e : ErrorKind)
  deriving DecidableEq, Repr

/-- The reason of a refusal of R244. -/
inductive RefuseReason where
  /-- The opcode byte is not in the opcode map (R76). -/
  | invalidOpcode (op : Byte)
  /-- The stream ends inside the command (R78). -/
  | truncated
  /-- The command fails these checks of R74. -/
  | illFormed (failed : List Check)
  deriving DecidableEq, Repr

/-- Why an agent halted, with what is recorded (R241, R243). The agent and its `pc`, the rest of the stop's identity, are
where the record stands. -/
inductive Stop where
  /-- The fault Unimplemented, with the `dev` operand (R241). -/
  | unimplemented (dev : Byte)
  /-- The model refusal of R244, with its reason. -/
  | refused (why : RefuseReason)
  deriving DecidableEq, Repr

/-- One agent, "one logical connection" (R20, R26 to R30). -/
structure Agent where
  /-- `prog_k`, as the concatenation of its commands' encodings (R27, R71). -/
  prog : List Byte
  /-- `pc_k`, the index of the next command (R27). -/
  pc : Nat
  /-- `res_k`, the results logged so far (R28). -/
  res : List Result
  /-- `halted_k` (R30, R244). -/
  halted : Bool
  /-- What was recorded when the agent halted (R241, R243; all the failed checks of a refusal, DESIGN CHOICE, log 9). -/
  stop : Option Stop
  deriving DecidableEq, Repr

/-- The whole state. The first five fields after `params` are the spec's (R20). `params` holds the session's parameters
(R7), and the last four are the inputs of an execution: which agent moves (R58) and the transport draws (R164). -/
structure State where
  /-- The parameters of the session (R7); no step changes them. -/
  params : Params
  /-- `mem` (R21): the bytes that differ from their reset value, addresses rising. -/
  mem : List Host.Cell
  /-- `fault` (R30). -/
  fault : Bool
  /-- `refused` (R244). -/
  refused : Bool
  /-- The agents, agent k at place k (R20, R26). There are N_AGENTS of them. -/
  agents : List Agent
  /-- The model's own: the agent whose operation is running, R240's `k`. -/
  turn : Nat
  /-- The model's own: the scheduler's coming picks (R58, R240). -/
  schedule : List Nat
  /-- The model's own: how many picks `Config.freePick` has given. -/
  freePicks : Nat
  /-- The coming draws of TRANSPORT_FAIL (R164), one for each bus call. -/
  transportDraws : List Bool
  deriving DecidableEq, Repr

/-- Why a step of the machine can stop with a fault at the interface. The spec's own fault, Unimplemented, is not one of
these: R241 gives its effect on the state and R248 lets the other agents go on, so it is a next state. -/
inductive Fault where
  /-- Raised by a meaning run on a state whose `turn` names no agent: there is no invoking agent to log a result for
  (R252). Safe (DESIGN CHOICE, log 7): `step` never runs a meaning on such a state. -/
  | noSuchAgent
  deriving DecidableEq, Repr

/-- Why a step has no meaning at the interface. The spec's refusal of a command (R244) is not one of these: it is a
next state too, for the same reason. -/
inductive Refusal where
  /-- An instruction that has no meaning yet. Raised by no arm of this model. Safe. -/
  | notModelled (mnemonic : String)
  /-- Raised by `step` when no agent has an allowed step: the run has ended (R255). Safe (DESIGN CHOICE, log 12). -/
  | noAllowedStep
  deriving DecidableEq, Repr

/-- The outcome of a step or of a meaning. -/
abbrev StepOutcome := Host.Outcome State Fault Refusal

/-- An agent at session start, with its program (R46). -/
def Agent.start (prog : List Byte) : Agent where
  prog := prog
  pc := 0
  res := []
  halted := false
  stop := none

/-- The start of a session: the parameters fixed, the register space created, each agent given its program (R45, R46,
R270, R273). `schedule` and `draws` are the inputs the execution will take. -/
def State.session (params : Params) (progs : List (List Byte)) (schedule : List Nat) (draws : List Bool) : State where
  params := params
  mem := []
  fault := false
  refused := false
  agents := progs.map Agent.start
  turn := 0
  schedule := schedule
  freePicks := 0
  transportDraws := draws

/-- The machine right after reset: a session with the default parameters, an open number of agents of at least one (R7), and
no command given to any of them (log 3, 11, 28). -/
def State.reset : State :=
  State.session defaultParams ([] :: List.replicate Config.extraAgents []) [] []

end Sys2Proof.Machine
end

