-- ==== Sys2Proof/Machine/Ops.lean ====
section
/-! DEFINITION. The named operations over the register array and the agents: reading and writing bytes, the transport
draw, completing a command, and halting an agent (the fault of R241 and the refusal of R244). -/

namespace Sys2Proof.Machine

/-! ## The register array -/

/-- What an address that memory does not list reads as: the reset contents of R45 (DESIGN CHOICE of the form, log 19). -/
def resetByte (gain : Byte) (a : Nat) : Byte :=
  if a = 0x07 then 0x20
  else if a = 0x0B then 0x20
  else if a = 0x1A then gain
  else 0x00

/-- The byte at an address of the array (R10, `mem[a]`). -/
def Memory.read (gain : Byte) : List Host.Cell → Nat → Byte
  | [], a => resetByte gain a
  | (b, v) :: m, a => if b = a then v else Memory.read gain m a

/-- The cells of one address: none where the byte is the one an unlisted address reads as. -/
def Memory.cell (gain : Byte) (a : Nat) (v : Byte) : List Host.Cell :=
  if v = resetByte gain a then [] else [(a, v)]

/-- Store one byte (R10, `mem[a] <- v`), keeping the canonical form. -/
def Memory.write (gain : Byte) : List Host.Cell → Nat → Byte → List Host.Cell
  | [], a, v => Memory.cell gain a v
  | (b, w) :: m, a, v =>
    if a < b then Memory.cell gain a v ++ (b, w) :: m
    else if a = b then Memory.cell gain a v ++ m
    else (b, w) :: Memory.write gain m a v

/-- Store a byte list from a start address; a byte past address 255 is dropped and no address wraps (R140). -/
def Memory.writeList (gain : Byte) : List Host.Cell → Nat → List Byte → List Host.Cell
  | m, _, [] => m
  | m, a, v :: vs => Memory.writeList gain (if a ≤ 255 then Memory.write gain m a v else m) (a + 1) vs

/-- The canonical form of memory: addresses strictly rising, all of them in the array, and no entry equal to what an
unlisted address reads as. -/
abbrev Memory.wf (gain : Byte) (m : List Host.Cell) : Prop :=
  m.Pairwise (fun c d => c.1 < d.1) ∧ ∀ c ∈ m, c.1 ≤ 255 ∧ c.2 ≠ resetByte gain c.1

/-- The byte a read gives at a position: the array's, and 0x00 past address 255 (R141). -/
def State.byteAt (s : State) (a : Nat) : Byte :=
  if a ≤ 255 then Memory.read s.params.defaultGain s.mem a else 0x00

/-- `count` bytes from a start address (R141, R10 MemRead). -/
def State.readBytes (s : State) (start count : Nat) : List Byte :=
  (List.range count).map fun i => s.byteAt (start + i)

/-- `s` with another register array. -/
def State.setMem (s : State) (m : List Host.Cell) : State := { s with mem := m }

/-- The bytes of `data` stored from a start address (R140, R10 MemWrite). -/
def State.writeBytes (s : State) (start : Nat) (data : List Byte) : State :=
  s.setMem (Memory.writeList s.params.defaultGain s.mem start data)

/-! ## Agents, marks and inputs -/

/-- `s` with agent `k` replaced. -/
def State.setAgent (s : State) (k : Nat) (ag : Agent) : State := { s with agents := s.agents.set k ag }

/-- The invoking agent. -/
def State.invoker (s : State) : Option Agent := s.agents[s.turn]?

/-- `s` with the marks `fault` and `refused` raised where the arguments say so; a mark is never cleared (R30, R244). -/
def State.raise (s : State) (fault refused : Bool) : State :=
  { s with fault := s.fault || fault, refused := s.refused || refused }

/-- TRANSPORT_FAIL(): the next draw; never true once the given draws are used up (R164, D16, log 5). -/
def State.transportFails (s : State) : Bool := s.transportDraws.headD false

/-- `s` with the next transport draw taken. -/
def State.dropDraw (s : State) : State := { s with transportDraws := s.transportDraws.tail }

/-- A command completes: its result is appended to the invoking agent's log and its `pc` advances (R10, R27, R28, R240). -/
def complete (r : Result) (s : State) : StepOutcome :=
  match s.invoker with
  | none => .fault .noSuchAgent
  | some ag => .next (s.setAgent s.turn { ag with pc := ag.pc + 1, res := ag.res ++ [r] })

/-- Is the stop the fault of R241? -/
def Stop.isFault : Stop → Bool
  | .unimplemented _ => true
  | .refused _ => false

/-- Taking the fault of R241 or the refusal of R244: the mark is raised, the invoking agent halts and the reason is recorded;
`mem`, `pc` and `res` stay (R247). Nothing returns from it: no operation clears `halted`, `fault` or `refused`
(R248). A next state, since the other agents go on (DEDUCED, log 8). -/
def halt (why : Stop) (s : State) : StepOutcome :=
  match s.invoker with
  | none => .fault .noSuchAgent
  | some ag =>
    .next ((s.setAgent s.turn { ag with halted := true, stop := some why }).raise why.isFault (!why.isFault))

/-- `refuse(reason)` (R10, R244). -/
def refuse (why : RefuseReason) (s : State) : StepOutcome := halt (.refused why) s

/-- `raise Unimplemented(dev)` (R10, R241). -/
def raiseUnimplemented (dev : Byte) (s : State) : StepOutcome := halt (.unimplemented dev) s

/-- The checks of R74, before anything else the command does (R246): a command that fails one is refused. -/
def whenWellFormed (i : Instr) (s : State) (run : State → StepOutcome) : StepOutcome :=
  if i.failedChecks = [] then run s else refuse (.illFormed i.failedChecks) s

/-! ## Bus calls -/

/-- A bus call takes one transport draw; when it fails, the error is the result and nothing else happens (R164, R201,
R242; DEDUCED that nothing else takes one, log 27). -/
def withTransport (s : State) (run : State → StepOutcome) : StepOutcome :=
  if s.transportFails then complete (.err .transportFailure) s.dropDraw else run s.dropDraw

/-- The bus write of R160: the first byte names the register, the others are stored from there. The device address is
ignored (R163). -/
def busWrite (_dev : Byte) (bytes : List Byte) (s : State) : StepOutcome :=
  withTransport s fun s =>
    match bytes with
    | [] => complete (.ok .unit) s
    | reg :: data => complete (.ok .unit) (s.writeBytes reg.toNat data)

/-- The bus read of R161: `count` bytes from the register, given to `dec`. The device address is ignored (R163). -/
def busRead (_dev : Byte) (reg count : Nat) (dec : List Byte → Value) (s : State) : StepOutcome :=
  withTransport s fun s => complete (.ok (dec (s.readBytes reg count))) s

/-- DEVICE_ADDRESS as the byte a bus call carries (R163, R200). -/
def State.deviceByte (s : State) : Byte := s.params.deviceAddress.setWidth 8

end Sys2Proof.Machine
end

