-- ==== Sys2Proof/Machine/Operands.lean ====
section
/-! DEFINITION. Operand assembly (30_encoding R73) and the register codec (40_codec): the pure functions between raw bytes
and typed values. -/

namespace Sys2Proof.Machine

/-! ## 12-bit quantities, status, burn counter -/

/-- `decode_u12` (R100): two bytes big-endian, masked to 12 bits. -/
def decodeU12 (hi lo : Byte) : U16 := be16 hi lo &&& 0x0FFF

/-- `encode_u12` (R101): masked to 12 bits and split big-endian. -/
def encodeU12 (v : U16) : List Byte := [hi8 (v &&& 0x0FFF), lo8 (v &&& 0x0FFF)]

/-- `decode_status` (R102): bits 5, 4 and 3. -/
def decodeStatus (b : Byte) : MagnetStatus where
  detected := b.getLsbD 5
  tooWeak := b.getLsbD 4
  tooStrong := b.getLsbD 3

/-- `b ? v : 0` (R103, R105). -/
def bitsWhen (b : Bool) (v : Byte) : Byte := if b then v else 0

/-- `encode_status` (R103): bits 5, 4 and 3, the others 0. -/
def encodeStatus (m : MagnetStatus) : Byte :=
  bitsWhen m.detected 0x20 ||| bitsWhen m.tooWeak 0x10 ||| bitsWhen m.tooStrong 0x08

/-- `decode_burn_count` (R107): the low two bits. -/
def decodeBurnCount (b : Byte) : Byte := b &&& 0x03

/-! ## Configuration fields -/

/-- The variant of a two-bit code, in a table of four (R33, R34, R36, R37). -/
def variantOf4 {α : Type} (t : Vector α 4) (c : BitVec 2) : α := t[c.toNat]'c.isLt

/-- The variant of a three-bit code, in a table of eight (R38). -/
def variantOf8 {α : Type} (t : Vector α 8) (c : BitVec 3) : α := t[c.toNat]'c.isLt

/-- The variant of an output-stage code: 0b11 decodes as 0b00 does (R35). -/
def outputStageOf (t : Vector OutputStage 3) (c : BitVec 2) : OutputStage :=
  if h : c.toNat < 3 then t[c.toNat] else t[0]

/-- The code of a variant: its place in the table (R105). -/
def codeOf {α : Type} [DecidableEq α] {n : Nat} (w : Nat) (t : Vector α n) (x : α) : BitVec w :=
  BitVec.ofNat w (t.toList.idxOf x)

/-- `decode_configuration` (R104) under FIELD_CODES `t`, the fields at the places R32 gives them. -/
def decodeConfiguration (t : FieldCodes) (hi lo : Byte) : Configuration where
  watchdog := hi.getLsbD 5
  fastFilterThreshold := variantOf8 t.fastFilterThreshold (hi.extractLsb' 2 3)
  slowFilter := variantOf4 t.slowFilter (hi.extractLsb' 0 2)
  pwmFrequency := variantOf4 t.pwmFrequency (lo.extractLsb' 6 2)
  outputStage := outputStageOf t.outputStage (lo.extractLsb' 4 2)
  hysteresis := variantOf4 t.hysteresis (lo.extractLsb' 2 2)
  powerMode := variantOf4 t.powerMode (lo.extractLsb' 0 2)

/-- The high byte of `encode_configuration` (R105): bits [7:6] are 0 (R32). -/
def encodeConfigHi (t : FieldCodes) (c : Configuration) : Byte :=
  (bitsWhen c.watchdog 1) <<< 5 ||| (codeOf 8 t.fastFilterThreshold c.fastFilterThreshold) <<< 2 |||
    codeOf 8 t.slowFilter c.slowFilter

/-- The low byte of `encode_configuration` (R105). -/
def encodeConfigLo (t : FieldCodes) (c : Configuration) : Byte :=
  (codeOf 8 t.pwmFrequency c.pwmFrequency) <<< 6 ||| (codeOf 8 t.outputStage c.outputStage) <<< 4 |||
    (codeOf 8 t.hysteresis c.hysteresis) <<< 2 ||| codeOf 8 t.powerMode c.powerMode

/-- `encode_configuration` (R105): the byte pair, the high byte first. -/
def encodeConfiguration (t : FieldCodes) (c : Configuration) : List Byte := [encodeConfigHi t c, encodeConfigLo t c]

/-! ## Operands -/

/-- A boolean operand byte: 0x00 is false and 0x01 is true (R73). -/
def boolOperand (b : Byte) : Bool := b == 0x01

/-- The MagnetStatus of the operands `d`, `w`, `s` (R73). -/
def statusOperands (d w s : Byte) : MagnetStatus where
  detected := boolOperand d
  tooWeak := boolOperand w
  tooStrong := boolOperand s

/-- The Configuration of the seven operands, each the code of a variant under FIELD_CODES (R73, R105). -/
def configOperands (t : FieldCodes) (pm hyst outs pwmf sf fth wd : Byte) : Configuration where
  powerMode := variantOf4 t.powerMode (pm.setWidth 2)
  hysteresis := variantOf4 t.hysteresis (hyst.setWidth 2)
  outputStage := outputStageOf t.outputStage (outs.setWidth 2)
  pwmFrequency := variantOf4 t.pwmFrequency (pwmf.setWidth 2)
  slowFilter := variantOf4 t.slowFilter (sf.setWidth 2)
  fastFilterThreshold := variantOf8 t.fastFilterThreshold (fth.setWidth 3)
  watchdog := boolOperand wd

/-! ## Decoders on a list of bytes read -/

/-- A one-byte decoder, on what a bus read of one byte gives (R200). -/
def onByte (dec : Byte → Value) (bs : List Byte) : Value := dec (bs.getD 0 0)

/-- A two-byte decoder, on what a bus read of two bytes gives, the high byte first (R200). -/
def onPair (dec : Byte → Byte → Value) (bs : List Byte) : Value := dec (bs.getD 0 0) (bs.getD 1 0)

end Sys2Proof.Machine
end

