-- ==== Sys2Proof/Machine/Bus.lean ====
section
/-! DEFINITION. The meanings of the bus adapter's commands (42_bus_adapter R160 to R164). -/

namespace Sys2Proof.Machine

/-- BUS_WRITE (R160). -/
def execBusWrite (dev : Byte) (data : List Byte) (s : State) : StepOutcome :=
  whenWellFormed (.busWrite dev data) s fun s => busWrite dev data s

/-- BUS_WRITE_THEN_READ (R161): the write list has exactly one byte, the start address (WF_BWR_LEN). -/
def execBusWriteThenRead (dev : Byte) (data : List Byte) (m : U16) (s : State) : StepOutcome :=
  whenWellFormed (.busWriteThenRead dev data m) s fun s =>
    busRead dev (data.getD 0 0).toNat m.toNat .bytes s

/-- BUS_TRANSACTION (R162): always Unimplemented, whatever the transport would say (R246). -/
def execBusTransaction (dev : Byte) (data : List Byte) (s : State) : StepOutcome :=
  whenWellFormed (.busTransaction dev data) s fun s => raiseUnimplemented dev s

end Sys2Proof.Machine
end

