-- ==== Sys2Proof/Machine/Codec.lean ====
section
/-! DEFINITION. The meanings of the codec commands (40_codec R100 to R107): each reads only its operands and logs one Ok
result (R110). -/

namespace Sys2Proof.Machine

/-- DECODE_U12 (R100). -/
def execDecodeU12 (hi lo : Byte) (s : State) : StepOutcome := complete (.ok (.u16 (decodeU12 hi lo))) s

/-- ENCODE_U12 (R101). -/
def execEncodeU12 (v : U16) (s : State) : StepOutcome := complete (.ok (.bytes (encodeU12 v))) s

/-- DECODE_STATUS (R102). -/
def execDecodeStatus (b : Byte) (s : State) : StepOutcome := complete (.ok (.status (decodeStatus b))) s

/-- ENCODE_STATUS (R103). -/
def execEncodeStatus (d w st : Byte) (s : State) : StepOutcome :=
  whenWellFormed (.encodeStatus d w st) s fun s =>
    complete (.ok (.bytes [encodeStatus (statusOperands d w st)])) s

/-- DECODE_CONFIG (R104). -/
def execDecodeConfig (hi lo : Byte) (s : State) : StepOutcome :=
  complete (.ok (.config (decodeConfiguration s.params.fieldCodes hi lo))) s

/-- ENCODE_CONFIG (R105). -/
def execEncodeConfig (pm hyst outs pwmf sf fth wd : Byte) (s : State) : StepOutcome :=
  whenWellFormed (.encodeConfig pm hyst outs pwmf sf fth wd) s fun s =>
    let t := s.params.fieldCodes
    complete (.ok (.bytes (encodeConfiguration t (configOperands t pm hyst outs pwmf sf fth wd)))) s

/-- DECODE_BURN_COUNT (R107). -/
def execDecodeBurnCount (b : Byte) (s : State) : StepOutcome := complete (.ok (.u8 (decodeBurnCount b))) s

end Sys2Proof.Machine
end

