-- ==== Sys2Proof/Machine/Control.lean ====
section
/-! DEFINITION. The meanings of the control surface's commands (43_control R180 to R186). They do not go through the bus
(R184), and each writes only its own register (R186). -/

namespace Sys2Proof.Machine

/-- One control update: encoded bytes stored into a register, `Ok(())` logged. -/
def controlUpdate (r : Register) (bytes : List Byte) (s : State) : StepOutcome :=
  complete (.ok .unit) (s.writeBytes r.base bytes)

/-- SET_RAW_ANGLE (R180). -/
def execSetRawAngle (v : U16) (s : State) : StepOutcome := controlUpdate .rawAngle (encodeU12 v) s

/-- SET_STATUS (R181). -/
def execSetStatus (d w st : Byte) (s : State) : StepOutcome :=
  whenWellFormed (.setStatus d w st) s fun s =>
    controlUpdate .status [encodeStatus (statusOperands d w st)] s

/-- SET_GAIN (R182). -/
def execSetGain (g : Byte) (s : State) : StepOutcome := controlUpdate .gain [g] s

/-- SET_MAGNITUDE (R183). -/
def execSetMagnitude (v : U16) (s : State) : StepOutcome := controlUpdate .magnitude (encodeU12 v) s

end Sys2Proof.Machine
end

