-- ==== Sys2Proof/Machine/Port.lean ====
section
/-! DEFINITION. The meanings of the register-file port's commands (41_register_port R140, R141). -/

namespace Sys2Proof.Machine

/-- RF_WRITE (R140). -/
def execRfWrite (start : Byte) (data : List Byte) (s : State) : StepOutcome :=
  whenWellFormed (.rfWrite start data) s fun s => complete (.ok .unit) (s.writeBytes start.toNat data)

/-- RF_READ (R141). -/
def execRfRead (start : Byte) (count : U16) (s : State) : StepOutcome :=
  complete (.ok (.bytes (s.readBytes start.toNat count.toNat))) s

end Sys2Proof.Machine
end

