-- ==== Sys2Proof/Machine/Typed.lean ====
section
/-! DEFINITION. The meanings of the typed accessors (44_typed_access R200 to R217): each is one bus call on DEVICE_ADDRESS
and one codec function, in one step. -/

namespace Sys2Proof.Machine

/-- A getter (R200): a bus read of the register's bytes, decoded. -/
def getter (r : Register) (dec : List Byte → Value) (s : State) : StepOutcome :=
  busRead s.deviceByte r.base r.width dec s

/-- A getter of a 12-bit quantity (R200, R41). -/
def getterU12 (r : Register) (s : State) : StepOutcome :=
  getter r (onPair fun hi lo => .u16 (decodeU12 hi lo)) s

/-- A setter (R200): a bus write of the register's address and the encoded bytes. -/
def setter (r : Register) (bytes : List Byte) (s : State) : StepOutcome :=
  busWrite s.deviceByte (BitVec.ofNat 8 r.base :: bytes) s

/-- GET_BURN_COUNT (R202). -/
def execGetBurnCount (s : State) : StepOutcome := getter .burnCounter (onByte fun b => .u8 (decodeBurnCount b)) s

/-- GET_ZERO_POSITION (R203). -/
def execGetZeroPosition (s : State) : StepOutcome := getterU12 .zeroPosition s

/-- SET_ZERO_POSITION (R204). -/
def execSetZeroPosition (v : U16) (s : State) : StepOutcome := setter .zeroPosition (encodeU12 v) s

/-- GET_MAX_POSITION (R205). -/
def execGetMaxPosition (s : State) : StepOutcome := getterU12 .maxPosition s

/-- SET_MAX_POSITION (R206). -/
def execSetMaxPosition (v : U16) (s : State) : StepOutcome := setter .maxPosition (encodeU12 v) s

/-- GET_MAX_ANGLE (R207). -/
def execGetMaxAngle (s : State) : StepOutcome := getterU12 .maxAngle s

/-- SET_MAX_ANGLE (R208). -/
def execSetMaxAngle (v : U16) (s : State) : StepOutcome := setter .maxAngle (encodeU12 v) s

/-- GET_CONFIG (R209). -/
def execGetConfig (s : State) : StepOutcome :=
  getter .configuration (onPair fun hi lo => .config (decodeConfiguration s.params.fieldCodes hi lo)) s

/-- SET_CONFIG (R210): both bytes in one bus call, the old bytes not read. -/
def execSetConfig (pm hyst outs pwmf sf fth wd : Byte) (s : State) : StepOutcome :=
  whenWellFormed (.setConfig pm hyst outs pwmf sf fth wd) s fun s =>
    let t := s.params.fieldCodes
    setter .configuration (encodeConfiguration t (configOperands t pm hyst outs pwmf sf fth wd)) s

/-- GET_STATUS (R211). -/
def execGetStatus (s : State) : StepOutcome := getter .status (onByte fun b => .status (decodeStatus b)) s

/-- GET_RAW_ANGLE (R212). -/
def execGetRawAngle (s : State) : StepOutcome := getterU12 .rawAngle s

/-- GET_ANGLE (R213): the filtered angle, not computed from the raw angle (R186). -/
def execGetAngle (s : State) : StepOutcome := getterU12 .filteredAngle s

/-- GET_GAIN (R214): the byte as it stands (R43). -/
def execGetGain (s : State) : StepOutcome := getter .gain (onByte .u8) s

/-- GET_MAGNITUDE (R215). -/
def execGetMagnitude (s : State) : StepOutcome := getterU12 .magnitude s

/-- COMMIT_ANGLE (R216): the byte 0x80 is stored at the commit trigger; no burn happens. -/
def execCommitAngle (s : State) : StepOutcome := setter .commitTrigger [0x80] s

/-- COMMIT_SETTINGS (R217): the byte 0x40 is stored at the commit trigger; no burn happens. -/
def execCommitSettings (s : State) : StepOutcome := setter .commitTrigger [0x40] s

end Sys2Proof.Machine
end

