-- ==== Sys2Proof/Machine/Dispatch.lean ====
section
/-! DEFINITION. One arm per command, each the command's own meaning (opcode map, 30_encoding R75). -/

namespace Sys2Proof.Machine

/-- The meaning of a command, performed by the agent that `s.turn` names (60_exceptions R240). -/
def exec (i : Instr) (s : State) : Host.Outcome State Fault Refusal :=
  match i with
  -- Codec
  | .decodeU12 hi lo => Sys2Proof.Machine.execDecodeU12 hi lo s
  | .encodeU12 v => Sys2Proof.Machine.execEncodeU12 v s
  | .decodeStatus b => Sys2Proof.Machine.execDecodeStatus b s
  | .encodeStatus d w st => Sys2Proof.Machine.execEncodeStatus d w st s
  | .decodeConfig hi lo => Sys2Proof.Machine.execDecodeConfig hi lo s
  | .encodeConfig pm hyst outs pwmf sf fth wd => Sys2Proof.Machine.execEncodeConfig pm hyst outs pwmf sf fth wd s
  | .decodeBurnCount b => Sys2Proof.Machine.execDecodeBurnCount b s
  -- Register-file port
  | .rfWrite start data => Sys2Proof.Machine.execRfWrite start data s
  | .rfRead start count => Sys2Proof.Machine.execRfRead start count s
  -- Bus adapter
  | .busWrite dev data => Sys2Proof.Machine.execBusWrite dev data s
  | .busWriteThenRead dev data m => Sys2Proof.Machine.execBusWriteThenRead dev data m s
  | .busTransaction dev data => Sys2Proof.Machine.execBusTransaction dev data s
  -- Control surface
  | .setRawAngle v => Sys2Proof.Machine.execSetRawAngle v s
  | .setStatus d w st => Sys2Proof.Machine.execSetStatus d w st s
  | .setGain g => Sys2Proof.Machine.execSetGain g s
  | .setMagnitude v => Sys2Proof.Machine.execSetMagnitude v s
  -- Typed accessors
  | .getBurnCount => Sys2Proof.Machine.execGetBurnCount s
  | .getZeroPosition => Sys2Proof.Machine.execGetZeroPosition s
  | .setZeroPosition v => Sys2Proof.Machine.execSetZeroPosition v s
  | .getMaxPosition => Sys2Proof.Machine.execGetMaxPosition s
  | .setMaxPosition v => Sys2Proof.Machine.execSetMaxPosition v s
  | .getMaxAngle => Sys2Proof.Machine.execGetMaxAngle s
  | .setMaxAngle v => Sys2Proof.Machine.execSetMaxAngle v s
  | .getConfig => Sys2Proof.Machine.execGetConfig s
  | .setConfig pm hyst outs pwmf sf fth wd => Sys2Proof.Machine.execSetConfig pm hyst outs pwmf sf fth wd s
  | .getStatus => Sys2Proof.Machine.execGetStatus s
  | .getRawAngle => Sys2Proof.Machine.execGetRawAngle s
  | .getAngle => Sys2Proof.Machine.execGetAngle s
  | .getGain => Sys2Proof.Machine.execGetGain s
  | .getMagnitude => Sys2Proof.Machine.execGetMagnitude s
  | .commitAngle => Sys2Proof.Machine.execCommitAngle s
  | .commitSettings => Sys2Proof.Machine.execCommitSettings s

end Sys2Proof.Machine
end

