-- ==== Sys2Proof/Machine/Fetch.lean ====
section
/-! DEFINITION. Which agent moves and what it runs (20_memory R58, 60_exceptions R240): the allowed agents, the scheduler's
pick, and fetching a command. -/

namespace Sys2Proof.Machine

/-- `prog_k` as a list of commands (R27, R71). -/
def Agent.commands (ag : Agent) : List Fetched := Sys2Proof.commands ag.prog

/-- "One step of agent k is allowed when halted_k = false and pc_k < len(prog_k)" (R240). -/
def Agent.allowed (ag : Agent) : Bool := !ag.halted && decide (ag.pc < ag.commands.length)

/-- Is a step of agent `k` allowed? (R240) -/
def State.allowed (s : State) (k : Nat) : Bool :=
  match s.agents[k]? with
  | none => false
  | some ag => ag.allowed

/-- The scheduler's next pick: the next of the given schedule, and a free value past its end (R58, log 6). -/
def State.pick (s : State) : Nat :=
  match s.schedule with
  | k :: _ => k
  | [] => Config.freePick s.freePicks

/-- The agent that moves: the one picked, where it is allowed; else the first allowed one, so that a step is a step of an
allowed agent whenever there is one (DESIGN CHOICE, log 6). None where no agent is allowed: the run has ended (R255). -/
def State.chosen (s : State) : Option Nat :=
  if s.allowed s.pick then some s.pick else s.agents.findIdx? Agent.allowed

/-- `s` as agent `k` is given the turn: the pick is used up. -/
def State.grant (s : State) (k : Nat) : State :=
  { s with
    turn := k
    schedule := s.schedule.tail
    freePicks := if s.schedule = [] then s.freePicks + 1 else s.freePicks }

/-- The command at the `pc` of the agent whose turn it is, `prog_k[pc_k]` (R240). -/
def State.fetch (s : State) : Option Fetched :=
  match s.invoker with
  | none => none
  | some ag => ag.commands[ag.pc]?

/-- An agent about to run a program from its first command, its log kept. -/
def Agent.load (ag : Agent) (prog : List Byte) : Agent :=
  { ag with prog := prog, pc := 0, halted := false, stop := none }

/-- `s` with a program given to agent 0 (which is added where there is no agent) and agent 0 scheduled next. -/
def State.loadFirst (s : State) (prog : List Byte) : State :=
  match s.agents with
  | [] => { s with agents := [Agent.start prog], schedule := 0 :: s.schedule }
  | ag :: rest => { s with agents := ag.load prog :: rest, schedule := 0 :: s.schedule }

end Sys2Proof.Machine
end

