-- ==== Sys2Proof/Machine/Step.lean ====
section
/-! DEFINITION. One step of the block (60_exceptions R240): one whole operation of one allowed agent. -/

namespace Sys2Proof.Machine

/-- What the agent given the turn does with the item it fetched: an Invalid or Truncated item is refused (R244), a command
is performed. -/
def runFetched (c : Fetched) (s : State) : StepOutcome :=
  match c with
  | .cmd i => exec i s
  | .invalid op => refuse (.invalidOpcode op) s
  | .truncated => refuse .truncated s

/-- One step (R240): the scheduler gives the turn to an allowed agent, which runs its next command. Where no agent is
allowed the run has ended (R255) and there is no step. -/
def step (s : State) : Host.Outcome State Fault Refusal :=
  match s.chosen with
  | none => .refused .noAllowedStep
  | some k =>
    match (s.grant k).fetch with
    | none => .refused .noAllowedStep
    | some c => runFetched c (s.grant k)

/-- `s` with the command whose first bits are `w` as agent 0's program, and agent 0 to move next (log 11, 23). -/
def State.withFetchWord (s : State) (nbits w : Nat) : State := s.loadFirst (tableCommand nbits w)

end Sys2Proof.Machine
end

