-- ==== Sys2Proof/Machine/Asm.lean ====
section
/-! DEFINITION. The textual form of commands (30_encoding R79): the mnemonic, then the operands separated by commas; numbers
in decimal or 0x hex, byte lists in brackets, booleans as true or false, configuration variants by name. It has no
behaviour (D22): no step reads it. Where R79 is silent the form is a DESIGN CHOICE (log 25). -/

namespace Sys2Proof.Machine

/-- An operand as it is written (R79). -/
inductive AsmOperand where
  | number (n : Nat)
  | byteList (bs : List Byte)
  | boolean (b : Bool)
  /-- A configuration variant's name. -/
  | variant (name : String)
  deriving DecidableEq, Repr

/-- A written command: its mnemonic and its operands in the order of R72. -/
structure AsmLine where
  mnemonic : String
  operands : List AsmOperand
  deriving DecidableEq, Repr

/-- The mnemonic of an operation (R75). -/
def Opcode.mnemonic : Opcode → String
  | .decodeU12 => "DECODE_U12"
  | .encodeU12 => "ENCODE_U12"
  | .decodeStatus => "DECODE_STATUS"
  | .encodeStatus => "ENCODE_STATUS"
  | .decodeConfig => "DECODE_CONFIG"
  | .encodeConfig => "ENCODE_CONFIG"
  | .decodeBurnCount => "DECODE_BURN_COUNT"
  | .rfWrite => "RF_WRITE"
  | .rfRead => "RF_READ"
  | .busWrite => "BUS_WRITE"
  | .busWriteThenRead => "BUS_WRITE_THEN_READ"
  | .busTransaction => "BUS_TRANSACTION"
  | .setRawAngle => "SET_RAW_ANGLE"
  | .setStatus => "SET_STATUS"
  | .setGain => "SET_GAIN"
  | .setMagnitude => "SET_MAGNITUDE"
  | .getBurnCount => "GET_BURN_COUNT"
  | .getZeroPosition => "GET_ZERO_POSITION"
  | .setZeroPosition => "SET_ZERO_POSITION"
  | .getMaxPosition => "GET_MAX_POSITION"
  | .setMaxPosition => "SET_MAX_POSITION"
  | .getMaxAngle => "GET_MAX_ANGLE"
  | .setMaxAngle => "SET_MAX_ANGLE"
  | .getConfig => "GET_CONFIG"
  | .setConfig => "SET_CONFIG"
  | .getStatus => "GET_STATUS"
  | .getRawAngle => "GET_RAW_ANGLE"
  | .getAngle => "GET_ANGLE"
  | .getGain => "GET_GAIN"
  | .getMagnitude => "GET_MAGNITUDE"
  | .commitAngle => "COMMIT_ANGLE"
  | .commitSettings => "COMMIT_SETTINGS"

/-- The operation of a mnemonic (R75). -/
def opcodeOfMnemonic (m : String) : Option Opcode :=
  (opcodeMap.find? fun r => Opcode.mnemonic r.op == m).map OpcodeRow.op

/-! ## Variant names (R33 to R38) -/

def PowerMode.name : PowerMode → String
  | .NOM => "NOM"
  | .LPM1 => "LPM1"
  | .LPM2 => "LPM2"
  | .LPM3 => "LPM3"

def Hysteresis.name : Hysteresis → String
  | .Off => "Off"
  | .Lsb1 => "Lsb1"
  | .Lsb2 => "Lsb2"
  | .Lsb3 => "Lsb3"

def OutputStage.name : OutputStage → String
  | .AnalogFull => "AnalogFull"
  | .AnalogReduced => "AnalogReduced"
  | .PWM => "PWM"

def PwmFrequency.name : PwmFrequency → String
  | .Hz115 => "Hz115"
  | .Hz230 => "Hz230"
  | .Hz460 => "Hz460"
  | .Hz920 => "Hz920"

def SlowFilter.name : SlowFilter → String
  | .X16 => "X16"
  | .X8 => "X8"
  | .X4 => "X4"
  | .X2 => "X2"

def FastFilterThreshold.name : FastFilterThreshold → String
  | .SlowOnly => "SlowOnly"
  | .Lsb6 => "Lsb6"
  | .Lsb7 => "Lsb7"
  | .Lsb9 => "Lsb9"
  | .Lsb18 => "Lsb18"
  | .Lsb21 => "Lsb21"
  | .Lsb24 => "Lsb24"
  | .Lsb10 => "Lsb10"

/-- The names of a table's variants, code 0 first. -/
def tableNames {α : Type} {n : Nat} (name : α → String) (t : Vector α n) : List String := t.toList.map name

/-- A variant's code as an operand: the name at that place of the table, or the number itself where the code spells no
variant. -/
def variantText (names : List String) (code : Byte) : AsmOperand :=
  match names[code.toNat]? with
  | some n => .variant n
  | none => .number code.toNat

/-- A boolean operand byte, or the number itself where the byte is neither 0x00 nor 0x01. -/
def boolText (b : Byte) : AsmOperand :=
  if b = 0 then .boolean false else if b = 1 then .boolean true else .number b.toNat

/-- The seven operands of a configuration, in the order of R79. -/
def configText (t : FieldCodes) (pm hyst outs pwmf sf fth wd : Byte) : List AsmOperand :=
  [variantText (tableNames PowerMode.name t.powerMode) pm, variantText (tableNames Hysteresis.name t.hysteresis) hyst,
   variantText (tableNames OutputStage.name t.outputStage) outs,
   variantText (tableNames PwmFrequency.name t.pwmFrequency) pwmf,
   variantText (tableNames SlowFilter.name t.slowFilter) sf,
   variantText (tableNames FastFilterThreshold.name t.fastFilterThreshold) fth, boolText wd]

/-- A byte or a 16-bit operand as a number. -/
def numberText {w : Nat} (b : BitVec w) : AsmOperand := .number b.toNat

/-- The operands of a command as they are written (R79). -/
def operandText (t : FieldCodes) : Instr → List AsmOperand
  | .decodeU12 hi lo => [numberText hi, numberText lo]
  | .encodeU12 v => [numberText v]
  | .decodeStatus b => [numberText b]
  | .encodeStatus d w s => [boolText d, boolText w, boolText s]
  | .decodeConfig hi lo => [numberText hi, numberText lo]
  | .encodeConfig pm hyst outs pwmf sf fth wd => configText t pm hyst outs pwmf sf fth wd
  | .decodeBurnCount b => [numberText b]
  | .rfWrite start data => [numberText start, .byteList data]
  | .rfRead start count => [numberText start, numberText count]
  | .busWrite dev data => [numberText dev, .byteList data]
  | .busWriteThenRead dev data m => [numberText dev, .byteList data, numberText m]
  | .busTransaction dev data => [numberText dev, .byteList data]
  | .setRawAngle v => [numberText v]
  | .setStatus d w s => [boolText d, boolText w, boolText s]
  | .setGain g => [numberText g]
  | .setMagnitude v => [numberText v]
  | .getBurnCount => []
  | .getZeroPosition => []
  | .setZeroPosition v => [numberText v]
  | .getMaxPosition => []
  | .setMaxPosition v => [numberText v]
  | .getMaxAngle => []
  | .setMaxAngle v => [numberText v]
  | .getConfig => []
  | .setConfig pm hyst outs pwmf sf fth wd => configText t pm hyst outs pwmf sf fth wd
  | .getStatus => []
  | .getRawAngle => []
  | .getAngle => []
  | .getGain => []
  | .getMagnitude => []
  | .commitAngle => []
  | .commitSettings => []

/-- A command as it is written (R79). -/
def disassemble (t : FieldCodes) (i : Instr) : AsmLine := ⟨Opcode.mnemonic i.opcode, operandText t i⟩

/-! ## Reading a written command -/

/-- A number operand of `w` bits. -/
def asBits (w : Nat) : AsmOperand → Option (BitVec w)
  | .number n => if n < 2 ^ w then some (BitVec.ofNat w n) else none
  | .byteList _ => none
  | .boolean _ => none
  | .variant _ => none

/-- A boolean operand's byte (R73, R79); a number is taken as the byte itself. -/
def asBool : AsmOperand → Option Byte
  | .boolean b => some (if b then 1 else 0)
  | .number n => asBits 8 (.number n)
  | .byteList _ => none
  | .variant _ => none

/-- A variant operand's code: the place of its name in the table (R79); a number is taken as the code itself. -/
def asCode (names : List String) : AsmOperand → Option Byte
  | .variant n => if n ∈ names then some (BitVec.ofNat 8 (names.idxOf n)) else none
  | .number n => asBits 8 (.number n)
  | .byteList _ => none
  | .boolean _ => none

/-- A byte list operand. -/
def asList : AsmOperand → Option (List Byte)
  | .byteList bs => some bs
  | .number _ => none
  | .boolean _ => none
  | .variant _ => none

/-- No operand. -/
def asm0 (i : Instr) : List AsmOperand → Option Instr
  | [] => some i
  | _ :: _ => none

/-- One number operand of `w` bits. -/
def asm1 {w : Nat} (mk : BitVec w → Instr) : List AsmOperand → Option Instr
  | [a] => do return mk (← asBits w a)
  | _ => none

/-- Two number operands. -/
def asm2 {v w : Nat} (mk : BitVec v → BitVec w → Instr) : List AsmOperand → Option Instr
  | [a, b] => do return mk (← asBits v a) (← asBits w b)
  | _ => none

/-- Three booleans. -/
def asmStatus (mk : Byte → Byte → Byte → Instr) : List AsmOperand → Option Instr
  | [d, w, s] => do return mk (← asBool d) (← asBool w) (← asBool s)
  | _ => none

/-- The seven operands of a configuration. -/
def asmConfig (t : FieldCodes) (mk : Byte → Byte → Byte → Byte → Byte → Byte → Byte → Instr) :
    List AsmOperand → Option Instr
  | [pm, hyst, outs, pwmf, sf, fth, wd] => do
    return mk (← asCode (tableNames PowerMode.name t.powerMode) pm)
      (← asCode (tableNames Hysteresis.name t.hysteresis) hyst)
      (← asCode (tableNames OutputStage.name t.outputStage) outs)
      (← asCode (tableNames PwmFrequency.name t.pwmFrequency) pwmf)
      (← asCode (tableNames SlowFilter.name t.slowFilter) sf)
      (← asCode (tableNames FastFilterThreshold.name t.fastFilterThreshold) fth) (← asBool wd)
  | _ => none

/-- A byte and a byte list, whose length gives n16 (R79). -/
def asmBlock (mk : Byte → List Byte → Instr) : List AsmOperand → Option Instr
  | [a, l] => do return mk (← asBits 8 a) (← asList l)
  | _ => none

/-- BUS_WRITE_THEN_READ's operands. -/
def asmBusRead : List AsmOperand → Option Instr
  | [a, l, m] => do return .busWriteThenRead (← asBits 8 a) (← asList l) (← asBits 16 m)
  | _ => none

/-- The operands of each operation (R79). -/
def assembleOperands (t : FieldCodes) : Opcode → List AsmOperand → Option Instr
  | .decodeU12 => asm2 .decodeU12
  | .encodeU12 => asm1 .encodeU12
  | .decodeStatus => asm1 .decodeStatus
  | .encodeStatus => asmStatus .encodeStatus
  | .decodeConfig => asm2 .decodeConfig
  | .encodeConfig => asmConfig t .encodeConfig
  | .decodeBurnCount => asm1 .decodeBurnCount
  | .rfWrite => asmBlock .rfWrite
  | .rfRead => asm2 .rfRead
  | .busWrite => asmBlock .busWrite
  | .busWriteThenRead => asmBusRead
  | .busTransaction => asmBlock .busTransaction
  | .setRawAngle => asm1 .setRawAngle
  | .setStatus => asmStatus .setStatus
  | .setGain => asm1 .setGain
  | .setMagnitude => asm1 .setMagnitude
  | .getBurnCount => asm0 .getBurnCount
  | .getZeroPosition => asm0 .getZeroPosition
  | .setZeroPosition => asm1 .setZeroPosition
  | .getMaxPosition => asm0 .getMaxPosition
  | .setMaxPosition => asm1 .setMaxPosition
  | .getMaxAngle => asm0 .getMaxAngle
  | .setMaxAngle => asm1 .setMaxAngle
  | .getConfig => asm0 .getConfig
  | .setConfig => asmConfig t .setConfig
  | .getStatus => asm0 .getStatus
  | .getRawAngle => asm0 .getRawAngle
  | .getAngle => asm0 .getAngle
  | .getGain => asm0 .getGain
  | .getMagnitude => asm0 .getMagnitude
  | .commitAngle => asm0 .commitAngle
  | .commitSettings => asm0 .commitSettings

/-- The command of a written line (R79). -/
def assemble (t : FieldCodes) (l : AsmLine) : Option Instr := do
  assembleOperands t (← opcodeOfMnemonic l.mnemonic) l.operands

/-! ## The line's text -/

/-- A written operand's text; numbers in decimal. -/
def AsmOperand.text : AsmOperand → String
  | .number n => Nat.repr n
  | .byteList bs => "[" ++ ", ".intercalate (bs.map fun b => Nat.repr b.toNat) ++ "]"
  | .boolean b => if b then "true" else "false"
  | .variant n => n

/-- A written line's text: the mnemonic first, then the operands separated by commas (R79). -/
def AsmLine.text (l : AsmLine) : String :=
  match l.operands with
  | [] => l.mnemonic
  | _ :: _ => l.mnemonic ++ " " ++ ", ".intercalate (l.operands.map AsmOperand.text)

/-- The pieces of a line's text. -/
inductive AsmToken where
  | word (cs : List Char)
  | comma | openList | closeList
  deriving DecidableEq, Repr

/-- A word piece, if a word has been read (its letters in reverse). -/
def wordToken (rev : List Char) : List AsmToken := if rev = [] then [] else [.word rev.reverse]

/-- Cut a text into pieces; blanks separate words. -/
def asmTokens (rev : List Char) : List Char → List AsmToken
  | [] => wordToken rev
  | c :: cs =>
    if c = ' ' then wordToken rev ++ asmTokens [] cs
    else if c = ',' then wordToken rev ++ .comma :: asmTokens [] cs
    else if c = '[' then wordToken rev ++ .openList :: asmTokens [] cs
    else if c = ']' then wordToken rev ++ .closeList :: asmTokens [] cs
    else asmTokens (c :: rev) cs

/-- The digits of `0x` hex in order, each at the place that is its value; the first ten are those of decimal (R79). -/
def digitRows : List String := ["0123456789ABCDEF", "0123456789abcdef"]

/-- The value of a digit: its place in a row of digits. -/
def digitValue (d : Char) : Option Nat := digitRows.findSome? fun row => row.toList.idxOf? d

/-- The number a list of digits spells in a base. -/
def digitsValue (base : Nat) : Nat → List Char → Option Nat
  | n, [] => some n
  | n, c :: cs =>
    match digitValue c with
    | none => none
    | some d => if d < base then digitsValue base (n * base + d) cs else none

/-- A number "in decimal or 0x hex" (R79). -/
def numberOfWord : List Char → Option Nat
  | [] => none
  | ['0', 'x'] => none
  | '0' :: 'x' :: c :: cs => digitsValue 16 0 (c :: cs)
  | c :: cs => digitsValue 10 0 (c :: cs)

/-- The operand a word spells outside a list. -/
def operandOfWord (cs : List Char) : AsmOperand :=
  match numberOfWord cs with
  | some n => .number n
  | none =>
    if cs = "true".toList then .boolean true
    else if cs = "false".toList then .boolean false
    else .variant (String.ofList cs)

/-- Where the reading of a line's operands stands. -/
structure AsmReading where
  /-- The operands read, the last first. -/
  done : List AsmOperand
  /-- The bytes of an open list, the last first. -/
  list : Option (List Byte)
  /-- An item may come now: at the line's start, after a comma, and right after `[`. -/
  item : Bool
  /-- An item must come: after a comma. -/
  owed : Bool
  deriving DecidableEq, Repr

/-- Read one piece. -/
def AsmReading.next (r : AsmReading) : AsmToken → Option AsmReading
  | .word cs =>
    if r.item = false then none
    else
      match r.list with
      | none => some ⟨operandOfWord cs :: r.done, none, false, false⟩
      | some bs => do
        let n ← numberOfWord cs
        if n < 256 then some ⟨r.done, some (BitVec.ofNat 8 n :: bs), false, false⟩ else none
  | .comma => if r.item then none else some { r with item := true, owed := true }
  | .openList => if r.item && r.list.isNone then some ⟨r.done, some [], true, false⟩ else none
  | .closeList =>
    match r.list with
    | none => none
    | some bs => if r.owed then none else some ⟨.byteList bs.reverse :: r.done, none, false, false⟩

/-- The operands of a line, from its pieces. -/
def readOperands (toks : List AsmToken) : Option (List AsmOperand) :=
  match toks.foldlM AsmReading.next ⟨[], none, true, false⟩ with
  | some ⟨done, none, _, false⟩ => some done.reverse
  | some ⟨_, none, _, true⟩ => none
  | some ⟨_, some _, _, _⟩ => none
  | none => none

/-- The written line of a text, if it is one (R79). -/
def AsmLine.ofText (text : String) : Option AsmLine :=
  match asmTokens [] text.toList with
  | .word m :: rest => (readOperands rest).map fun ops => ⟨String.ofList m, ops⟩
  | .comma :: _ => none
  | .openList :: _ => none
  | .closeList :: _ => none
  | [] => none

end Sys2Proof.Machine
end

