-- ==== Sys2Proof/Machine/Flags.lean ====
section
/-! DEFINITION. The block has no status flag: "The only condition a command reports is the kind of its Result" (10_state
R29). This file holds those kinds, their outcome codes (60_exceptions R243) and the order in which a command's outcome is
decided (R246), as a reader's view of what the meanings do. -/

namespace Sys2Proof.Machine

/-- The four outcomes of a command (R243). -/
inductive OutcomeKind where
  | ok | transportFailure | unimplemented | refused
  deriving DecidableEq, Repr

/-- The outcome codes (R243). -/
def OutcomeKind.code : OutcomeKind → Nat
  | .ok => 0
  | .transportFailure => 1
  | .unimplemented => 2
  | .refused => 3

/-- The kind of a logged result (R29, R243). -/
def Result.kind : Result → OutcomeKind
  | .ok _ => .ok
  | .err .transportFailure => .transportFailure

/-- The kind of a stop (R243). -/
def Stop.kind : Stop → OutcomeKind
  | .unimplemented _ => .unimplemented
  | .refused _ => .refused

/-- The operations that make a bus call, and so take a transport draw: BUS_WRITE, BUS_WRITE_THEN_READ and the typed
accessors (R164). -/
def Opcode.makesBusCall : Opcode → Bool
  | .decodeU12 | .encodeU12 | .decodeStatus | .encodeStatus | .decodeConfig | .encodeConfig | .decodeBurnCount => false
  | .rfWrite | .rfRead => false
  | .busWrite | .busWriteThenRead => true
  | .busTransaction => false
  | .setRawAngle | .setStatus | .setGain | .setMagnitude => false
  | .getBurnCount | .getZeroPosition | .setZeroPosition | .getMaxPosition | .setMaxPosition | .getMaxAngle
  | .setMaxAngle | .getConfig | .setConfig | .getStatus | .getRawAngle | .getAngle | .getGain | .getMagnitude
  | .commitAngle | .commitSettings => true

/-- R246: the outcome of an item of a program, the transport draw being `fails`. -/
def outcomeOf (c : Fetched) (fails : Bool) : OutcomeKind :=
  match c with
  | .invalid _ => .refused
  | .truncated => .refused
  | .cmd i =>
    if i.failedChecks ≠ [] then .refused
    else if i.opcode = .busTransaction then .unimplemented
    else if Opcode.makesBusCall i.opcode && fails then .transportFailure
    else .ok

end Sys2Proof.Machine
end

