-- ==== Sys2Proof/Machine/Effects.lean ====
section
/-! DEFINITION. What each command stores into the register array, as a table read from the rules (41_register_port R140,
42_bus_adapter R160, 43_control R180 to R183, 44_typed_access R204 to R217), and the stores of a run in order (20_memory
R58). No step reads these: claims are stated in their terms. -/

namespace Sys2Proof.Machine

/-- The start address and the bytes a command stores when it completes with Ok; none for a command that stores nothing. -/
def storeOf (t : FieldCodes) : Instr → Option (Nat × List Byte)
  | .decodeU12 _ _ => none
  | .encodeU12 _ => none
  | .decodeStatus _ => none
  | .encodeStatus _ _ _ => none
  | .decodeConfig _ _ => none
  | .encodeConfig _ _ _ _ _ _ _ => none
  | .decodeBurnCount _ => none
  | .rfWrite start data => some (start.toNat, data)
  | .rfRead _ _ => none
  | .busWrite _ [] => none
  | .busWrite _ (reg :: data) => some (reg.toNat, data)
  | .busWriteThenRead _ _ _ => none
  | .busTransaction _ _ => none
  | .setRawAngle v => some (0x0C, encodeU12 v)
  | .setStatus d w s => some (0x0B, [encodeStatus (statusOperands d w s)])
  | .setGain g => some (0x1A, [g])
  | .setMagnitude v => some (0x1B, encodeU12 v)
  | .getBurnCount => none
  | .getZeroPosition => none
  | .setZeroPosition v => some (0x01, encodeU12 v)
  | .getMaxPosition => none
  | .setMaxPosition v => some (0x03, encodeU12 v)
  | .getMaxAngle => none
  | .setMaxAngle v => some (0x05, encodeU12 v)
  | .getConfig => none
  | .setConfig pm hyst outs pwmf sf fth wd =>
    some (0x07, encodeConfiguration t (configOperands t pm hyst outs pwmf sf fth wd))
  | .getStatus => none
  | .getRawAngle => none
  | .getAngle => none
  | .getGain => none
  | .getMagnitude => none
  | .commitAngle => some (0xFF, [0x80])
  | .commitSettings => some (0xFF, [0x40])

/-- What an item of a program stores, the transport draw being `fails`: nothing unless its outcome is Ok (R242, R247). -/
def storeOfItem (t : FieldCodes) (fails : Bool) (c : Fetched) : Option (Nat × List Byte) :=
  match c with
  | .invalid _ => none
  | .truncated => none
  | .cmd i => if outcomeOf (.cmd i) fails = .ok then storeOf t i else none

/-- The byte a store puts at an address, if any: a byte past address 255 is dropped (R140). -/
def storedByte (store : Option (Nat × List Byte)) (x : Nat) : Option Byte :=
  match store with
  | none => none
  | some (a, bytes) => if a ≤ x ∧ x ≤ 255 then bytes[x - a]? else none

/-- The item the next step runs, if there is a step. -/
def State.nextItem (s : State) : Option Fetched :=
  match s.chosen with
  | none => none
  | some k => (s.grant k).fetch

/-- The stores of the next `n` steps, in order. -/
def State.stores : Nat → State → List (Option (Nat × List Byte))
  | 0, _ => []
  | n + 1, s =>
    match s.nextItem, step s with
    | some c, .next t => storeOfItem s.params.fieldCodes s.transportFails c :: State.stores n t
    | _, _ => []

/-- The byte the last of the stores to an address put there, if there was one (R58). -/
def lastStored (stores : List (Option (Nat × List Byte))) (x : Nat) : Option Byte :=
  stores.foldl (fun last st => (storedByte st x).or last) none

end Sys2Proof.Machine
end

