-- ==== Sys2Proof/Safety.lean ====
section
/-! DEFINITION. The end of a run and its observation (60_exceptions R255), how much of a run is left (70_reset R285), and the
invariant of the machine's states, and the words in which the effect of one command is stated. -/

namespace Sys2Proof.Machine

/-- `s` after its invoking agent `ag` completed a command with result `r`: the result is appended to its log, its `pc` is one
more, and nothing else is changed (R240). -/
def State.afterResult (s : State) (ag : Agent) (r : Result) : State :=
  { s with agents := s.agents.set s.turn { ag with pc := ag.pc + 1, res := ag.res ++ [r] } }

/-- `s` after its invoking agent `ag` stopped: it has halted, the reason is recorded, the mark is raised, and nothing else is
changed: not `mem`, not its `pc`, not its log (R241, R244, R247). -/
def State.afterStop (s : State) (ag : Agent) (why : Stop) : State :=
  match why with
  | .unimplemented _ =>
    { s with agents := s.agents.set s.turn { ag with halted := true, stop := some why }, fault := true }
  | .refused _ =>
    { s with agents := s.agents.set s.turn { ag with halted := true, stop := some why }, refused := true }

/-- `t` is `s` with `bytes` stored from address `a`: each byte at an address up to 255 is there, every other byte of the array is
as it was, and nothing but the array is changed (R140). -/
def State.Stored (s t : State) (a : Nat) (bytes : List Byte) : Prop :=
  t = s.setMem t.mem ∧
  ∀ x, t.byteAt x = if a ≤ x ∧ x < a + bytes.length ∧ x ≤ 255 then bytes.getD (x - a) 0 else s.byteAt x

/-- `c` is the configuration that R104's pseudocode reads from a byte pair, field by field, under FIELD_CODES `t`: each field's variant
is the one its table gives for its bits, and output-stage code 0b11 counts as 0b00. -/
def ConfigurationOf (t : FieldCodes) (hi lo : Nat) (c : Configuration) : Prop :=
  c.watchdog = decide (hi / 32 % 2 = 1) ∧
  t.fastFilterThreshold.toList[hi / 4 % 8]? = some c.fastFilterThreshold ∧
  t.slowFilter.toList[hi % 4]? = some c.slowFilter ∧
  t.pwmFrequency.toList[lo / 64 % 4]? = some c.pwmFrequency ∧
  t.outputStage.toList[if lo / 16 % 4 = 3 then 0 else lo / 16 % 4]? = some c.outputStage ∧
  t.hysteresis.toList[lo / 4 % 4]? = some c.hysteresis ∧
  t.powerMode.toList[lo % 4]? = some c.powerMode

/-- The run has ended: "no agent has an allowed step" (R255). -/
abbrev State.Ended (s : State) : Prop := ∀ ag ∈ s.agents, ag.allowed = false

/-- The run has ended well (R255): no mark is raised and every agent has run its whole program. -/
abbrev State.EndsWell (s : State) : Prop :=
  s.fault = false ∧ s.refused = false ∧ ∀ ag ∈ s.agents, ag.pc = ag.commands.length

/-- What a claim reads of a run that ended well: every byte of `mem`, and every result log (R255). -/
def State.observation (s : State) : List Byte × List (List Result) :=
  (s.readBytes 0 256, s.agents.map Agent.res)

/-- How many commands an agent can still run. -/
def Agent.remaining (ag : Agent) : Nat := if ag.halted then 0 else ag.commands.length - ag.pc

/-- How many commands all agents together can still run. -/
def State.remaining (s : State) : Nat := (s.agents.map Agent.remaining).sum

/-- Does the agent's record say it raised Unimplemented? -/
def Agent.faulted (ag : Agent) : Bool :=
  match ag.stop with
  | some (.unimplemented _) => true
  | some (.refused _) => false
  | none => false

/-- Does the agent's record say its command was refused? -/
def Agent.wasRefused (ag : Agent) : Bool :=
  match ag.stop with
  | some (.unimplemented _) => false
  | some (.refused _) => true
  | none => false

/-- An agent's fields agree: it has halted exactly when a stop is recorded, its `pc` is within its program, a halted agent's
`pc` still names a command (R247), and it has logged one result for each command it completed (R28). -/
structure Agent.Inv (ag : Agent) : Prop where
  halted_iff : ag.halted = ag.stop.isSome
  pc_le : ag.pc ≤ ag.commands.length
  halted_pc : ag.halted = true → ag.pc < ag.commands.length
  log_length : ag.res.length = ag.pc

/-- The invariant: memory is in canonical form, every agent's fields agree, and each mark is raised exactly when some agent
stopped for its reason (R30, R241, R244). -/
structure State.Inv (s : State) : Prop where
  mem_wf : Memory.wf s.params.defaultGain s.mem
  agents_ok : ∀ ag ∈ s.agents, ag.Inv
  fault_iff : s.fault = s.agents.any Agent.faulted
  refused_iff : s.refused = s.agents.any Agent.wasRefused

/-- `t` is reached from `s` by `n` steps. -/
def State.Reaches (n : Nat) (s t : State) : Prop := Host.Core.run Sys2Proof.core n s = .next t

end Sys2Proof.Machine
end

