-- ==== Sys2Proof/Certificates/Slice0/Obligations.lean ====
section
/-! DEFINITION. The statements for the provers, each from a numbered rule of spec/ (the docstring names it). A register of the
array is read through `State.byteAt`. "Completes" is `State.afterResult` (one result logged, `pc` one more, nothing else changed),
"stops" is `State.afterStop` (halted, reason recorded, mark raised, nothing else changed), "stored" is `State.Stored` (the bytes
are there, every other byte and every other field as before). -/

open Sys2Proof Sys2Proof.Machine

/-! ## Encoding -/

/-- Every well-formed command is read back from its encoding, whatever follows it (30_encoding R72, R81). -/
def Obligations.DecodeOfEncode : Prop :=
  ∀ (i : Instr) (rest : List Byte), i.WellFormed → decode (encode i ++ rest) = .cmd i rest

/-- Whatever the decoder reads as a command, encoded again, gives the same bytes: no bit of a command is dropped (R81). -/
def Obligations.EncodeOfDecode : Prop :=
  ∀ (stream rest : List Byte) (i : Instr), decode stream = .cmd i rest → encode i ++ rest = stream

/-- A program's bytes, the concatenation of its commands' encodings, are read as exactly its commands (R71, R78). -/
def Obligations.ProgramBytesAreCommands : Prop :=
  ∀ prog : List Instr, (∀ i ∈ prog, i.WellFormed) → commands (prog.flatMap encode) = prog.map Fetched.cmd

/-- R76: a byte 0 outside the opcode map, and no other, gives Invalid; the command is refused. -/
def Obligations.InvalidOpcodes : Prop :=
  (∀ (b op : Byte) (operands : List Byte), decode (b :: operands) = .invalid op ↔
    op = b ∧ (b.toNat ≤ 0x0F ∨ (0x17 ≤ b.toNat ∧ b.toNat ≤ 0x1F) ∨ (0x22 ≤ b.toNat ∧ b.toNat ≤ 0x2F) ∨
      (0x33 ≤ b.toNat ∧ b.toNat ≤ 0x3F) ∨ (0x44 ≤ b.toNat ∧ b.toNat ≤ 0x4F) ∨ 0x60 ≤ b.toNat)) ∧
  ∀ (op : Byte) (s : State) (ag : Agent), s.agents[s.turn]? = some ag →
    runFetched (.invalid op) s = .next (s.afterStop ag (.refused (.invalidOpcode op)))

/-- R78: the length of a command is found from byte 0 and the length field. A stream that is as long is read as a command
of that length; a shorter one, or one that ends before the length field does, is Truncated, and is refused. -/
def Obligations.CommandLengths : Prop :=
  (∀ (b : Byte) (operands : List Byte), (rowOfByte b).isSome →
    match commandLength (b :: operands) with
    | none => decode (b :: operands) = .truncated
    | some n =>
      if (b :: operands).length < n then decode (b :: operands) = .truncated
      else ∃ i, decode (b :: operands) = .cmd i ((b :: operands).drop n)) ∧
  ∀ (s : State) (ag : Agent), s.agents[s.turn]? = some ag →
    runFetched .truncated s = .next (s.afterStop ag (.refused .truncated))

/-- Some words written out from the opcode map and the formats (R72, R75), one of each family and format. -/
def Obligations.SampleWordsDecode : Prop :=
  decode [0x10, 0x0A, 0xBC] = .cmd (.decodeU12 0x0A 0xBC) [] ∧
  decode [0x11, 0x18, 0x01] = .cmd (.encodeU12 0x1801) [] ∧
  decode [0x13, 0x01, 0x00, 0x01] = .cmd (.encodeStatus 1 0 1) [] ∧
  decode [0x15, 0x02, 0x03, 0x01, 0x00, 0x02, 0x04, 0x01] = .cmd (.encodeConfig 2 3 1 0 2 4 1) [] ∧
  decode [0x20, 0xFE, 0x00, 0x03, 0x11, 0x22, 0x33] = .cmd (.rfWrite 0xFE [0x11, 0x22, 0x33]) [] ∧
  decode [0x21, 0x0B, 0x01, 0x02, 0x50] = .cmd (.rfRead 0x0B 0x0102) [0x50] ∧
  decode [0x30, 0x36, 0x00, 0x01, 0x1D] = .cmd (.busWrite 0x36 [0x1D]) [] ∧
  decode [0x31, 0x36, 0x00, 0x01, 0xFE, 0x00, 0x04] = .cmd (.busWriteThenRead 0x36 [0xFE] 4) [] ∧
  decode [0x32, 0x36, 0x00, 0x00] = .cmd (.busTransaction 0x36 []) [] ∧
  decode [0x42, 0xC8] = .cmd (.setGain 0xC8) [] ∧
  decode [0x5F] = .cmd .commitSettings []

/-- The written form of a command (R79), its numbers, byte lists, booleans and variant names, is assembled back to it, under every
admitted FIELD_CODES. (An ill-formed operand is written as a number: log 25.) -/
def Obligations.AssembleOfDisassemble : Prop :=
  ∀ (t : FieldCodes) (i : Instr), t.Bijective → assemble t (disassemble t i) = some i

/-- R74: the conditions of the checks, for every command a decoder reads from a stream; a command that fails one is refused. (Which
of the failed checks the refusal records is the model's choice: all of them, log 9.) -/
def Obligations.WellFormednessChecks : Prop :=
  ∀ (stream rest : List Byte) (i : Instr), decode stream = .cmd i rest →
    (i.WellFormed ↔
      match i with
      | .encodeStatus d w st | .setStatus d w st => d.toNat ≤ 1 ∧ w.toNat ≤ 1 ∧ st.toNat ≤ 1
      | .encodeConfig pm hyst outs pwmf sf fth wd | .setConfig pm hyst outs pwmf sf fth wd =>
        pm.toNat ≤ 3 ∧ hyst.toNat ≤ 3 ∧ outs.toNat ≤ 2 ∧ pwmf.toNat ≤ 3 ∧ sf.toNat ≤ 3 ∧ fth.toNat ≤ 7 ∧ wd.toNat ≤ 1
      | .busWrite dev _ | .busTransaction dev _ => dev.toNat ≤ 0x7F
      | .busWriteThenRead dev data _ => dev.toNat ≤ 0x7F ∧ data.length = 1
      | _ => True) ∧
    ∀ (s : State) (ag : Agent), ¬ i.WellFormed → s.agents[s.turn]? = some ag →
      ∃ failed, exec i s = .next (s.afterStop ag (.refused (.illFormed failed)))

/-! ## Codec -/

/-- R100: opcode 0x10; two bytes combined big-endian and masked to 12 bits. -/
def Obligations.DecodeU12Result : Prop :=
  ∀ (hi lo : Byte) (s : State) (ag : Agent), s.agents[s.turn]? = some ag →
    (∀ rest, decode (0x10 :: hi :: lo :: rest) = .cmd (.decodeU12 hi lo) rest) ∧
    exec (.decodeU12 hi lo) s =
      .next (s.afterResult ag (.ok (.u16 (BitVec.ofNat 16 ((hi.toNat * 256 + lo.toNat) % 4096)))))

/-- R101: opcode 0x11; a 16-bit value masked to 12 bits and split big-endian. -/
def Obligations.EncodeU12Result : Prop :=
  ∀ (hi lo : Byte) (v : U16) (s : State) (ag : Agent), s.agents[s.turn]? = some ag →
    v.toNat = hi.toNat * 256 + lo.toNat →
    (∀ rest, decode (0x11 :: hi :: lo :: rest) = .cmd (.encodeU12 v) rest) ∧
    exec (.encodeU12 v) s =
      .next (s.afterResult ag (.ok (.bytes [BitVec.ofNat 8 (v.toNat % 4096 / 256), BitVec.ofNat 8 (v.toNat % 256)])))

/-- R102: opcode 0x12; bits 5, 4 and 3 of the status byte, every other bit ignored. -/
def Obligations.DecodeStatusResult : Prop :=
  ∀ (b : Byte) (s : State) (ag : Agent), s.agents[s.turn]? = some ag →
    (∀ rest, decode (0x12 :: b :: rest) = .cmd (.decodeStatus b) rest) ∧
    exec (.decodeStatus b) s =
      .next (s.afterResult ag (.ok (.status
        ⟨decide (b.toNat / 32 % 2 = 1), decide (b.toNat / 16 % 2 = 1), decide (b.toNat / 8 % 2 = 1)⟩)))

/-- R103: opcode 0x13; the three booleans packed at bits 5, 4 and 3, every other bit 0; an operand byte other than 0x00 and 0x01
is refused. -/
def Obligations.EncodeStatusResult : Prop :=
  ∀ (d w st : Byte) (s : State) (ag : Agent), s.agents[s.turn]? = some ag →
    (∀ rest, decode (0x13 :: d :: w :: st :: rest) = .cmd (.encodeStatus d w st) rest) ∧
    (d.toNat ≤ 1 ∧ w.toNat ≤ 1 ∧ st.toNat ≤ 1 →
      exec (.encodeStatus d w st) s =
        .next (s.afterResult ag (.ok (.bytes [BitVec.ofNat 8 (32 * d.toNat + 16 * w.toNat + 8 * st.toNat)])))) ∧
    (¬ (d.toNat ≤ 1 ∧ w.toNat ≤ 1 ∧ st.toNat ≤ 1) →
      exec (.encodeStatus d w st) s = .next (s.afterStop ag (.refused (.illFormed [.bool]))))

/-- R104: opcode 0x14; one variant for each bit-field, hi[7:6] ignored, under every FIELD_CODES. -/
def Obligations.DecodeConfigResult : Prop :=
  ∀ (hi lo : Byte) (s : State) (ag : Agent), s.agents[s.turn]? = some ag →
    (∀ rest, decode (0x14 :: hi :: lo :: rest) = .cmd (.decodeConfig hi lo) rest) ∧
    ∃ c, ConfigurationOf s.params.fieldCodes hi.toNat lo.toNat c ∧
      exec (.decodeConfig hi lo) s = .next (s.afterResult ag (.ok (.config c)))

/-- R105: opcode 0x15; the seven codes packed field by field, hi[7:6] 0; an operand out of its range is refused. -/
def Obligations.EncodeConfigResult : Prop :=
  ∀ (pm hyst outs pwmf sf fth wd : Byte) (s : State) (ag : Agent), s.agents[s.turn]? = some ag →
    s.params.fieldCodes.Bijective →
    (∀ rest, decode (0x15 :: pm :: hyst :: outs :: pwmf :: sf :: fth :: wd :: rest) =
      .cmd (.encodeConfig pm hyst outs pwmf sf fth wd) rest) ∧
    (pm.toNat ≤ 3 ∧ hyst.toNat ≤ 3 ∧ outs.toNat ≤ 2 ∧ pwmf.toNat ≤ 3 ∧ sf.toNat ≤ 3 ∧ fth.toNat ≤ 7 ∧ wd.toNat ≤ 1 →
      exec (.encodeConfig pm hyst outs pwmf sf fth wd) s =
        .next (s.afterResult ag (.ok (.bytes
          [BitVec.ofNat 8 (32 * wd.toNat + 4 * fth.toNat + sf.toNat),
           BitVec.ofNat 8 (64 * pwmf.toNat + 16 * outs.toNat + 4 * hyst.toNat + pm.toNat)])))) ∧
    (¬ (pm.toNat ≤ 3 ∧ hyst.toNat ≤ 3 ∧ outs.toNat ≤ 2 ∧ pwmf.toNat ≤ 3 ∧ sf.toNat ≤ 3 ∧ fth.toNat ≤ 7 ∧
        wd.toNat ≤ 1) →
      ∃ failed, exec (.encodeConfig pm hyst outs pwmf sf fth wd) s =
        .next (s.afterStop ag (.refused (.illFormed failed))))

/-- R107: opcode 0x16; the low two bits. -/
def Obligations.DecodeBurnCountResult : Prop :=
  ∀ (b : Byte) (s : State) (ag : Agent), s.agents[s.turn]? = some ag →
    (∀ rest, decode (0x16 :: b :: rest) = .cmd (.decodeBurnCount b) rest) ∧
    exec (.decodeBurnCount b) s = .next (s.afterResult ag (.ok (.u8 (BitVec.ofNat 8 (b.toNat % 4)))))

/-- R106, both round-trip laws of the configuration codec, under every admitted FIELD_CODES. The code of the variant of 0b00 is
0b00 (a bijective table), so the normalised low byte is `lo & 0xCF` under every one of them. -/
def Obligations.ConfigRoundTrips : Prop :=
  ∀ t : FieldCodes, t.Bijective →
    (∀ c : Configuration, ∃ hi lo, encodeConfiguration t c = [hi, lo] ∧ decodeConfiguration t hi lo = c) ∧
    ∀ hi lo : Byte, encodeConfiguration t (decodeConfiguration t hi lo) =
      [hi &&& 0x3F, if lo.toNat / 16 % 4 = 3 then lo &&& 0xCF else lo]

/-- R108, both laws of the 12-bit codec. -/
def Obligations.U12RoundTrips : Prop :=
  (∀ v : U16, ∃ hi lo, encodeU12 v = [hi, lo] ∧ decodeU12 hi lo = v &&& 0x0FFF) ∧
  (∀ v : U16, v.toNat ≤ 4095 → ∃ hi lo, encodeU12 v = [hi, lo] ∧ decodeU12 hi lo = v) ∧
  ∀ hi lo : Byte, encodeU12 (decodeU12 hi lo) = [hi &&& 0x0F, lo]

/-- R109, both laws of the status codec. -/
def Obligations.StatusRoundTrips : Prop :=
  (∀ m : MagnetStatus, decodeStatus (encodeStatus m) = m) ∧
  ∀ b : Byte, encodeStatus (decodeStatus b) = b &&& 0x38

/-! ## Register-file port -/

/-- R140: opcode 0x20; the bytes are stored from the start address, those past address 255 are dropped, no address wraps. -/
def Obligations.RfWriteStores : Prop :=
  ∀ (start nh nl : Byte) (data : List Byte) (s : State) (ag : Agent), s.agents[s.turn]? = some ag →
    Memory.wf s.params.defaultGain s.mem → nh.toNat * 256 + nl.toNat = data.length →
    (∀ rest, decode (0x20 :: start :: nh :: nl :: data ++ rest) = .cmd (.rfWrite start data) rest) ∧
    ∃ u, s.Stored u start.toNat data ∧ exec (.rfWrite start data) s = .next (u.afterResult ag (.ok .unit))

/-- R141: opcode 0x21; exactly `count` bytes, those past address 255 are 0x00; nothing else changes. -/
def Obligations.RfReadReads : Prop :=
  ∀ (start ch cl : Byte) (count : U16) (s : State) (ag : Agent), s.agents[s.turn]? = some ag →
    count.toNat = ch.toNat * 256 + cl.toNat →
    (∀ rest, decode (0x21 :: start :: ch :: cl :: rest) = .cmd (.rfRead start count) rest) ∧
    ∃ out : List Byte, out.length = count.toNat ∧
      (∀ j, j < count.toNat → out[j]? =
        some (if start.toNat + j ≤ 255 then Memory.read s.params.defaultGain s.mem (start.toNat + j) else 0x00)) ∧
      exec (.rfRead start count) s = .next (s.afterResult ag (.ok (.bytes out)))

/-- Writing the same bytes twice leaves the same array as writing them once (20_memory R56, its clause on writes). -/
def Obligations.RfWriteIdempotent : Prop :=
  ∀ (start : Byte) (data : List Byte) (s t u : State), Memory.wf s.params.defaultGain s.mem →
    (Instr.rfWrite start data).WellFormed →
    exec (.rfWrite start data) s = .next t → exec (.rfWrite start data) t = .next u → u.mem = t.mem

/-! ## Bus adapter -/

/-- R160: opcode 0x30; the first byte names the register and the others are stored from it, exactly as RF_WRITE stores them; no
byte, or one, stores nothing; a failing transport draw gives TransportFailure and leaves the array. One draw is taken. -/
def Obligations.BusWriteStores : Prop :=
  ∀ (dev nh nl : Byte) (data : List Byte) (s : State) (ag : Agent), s.agents[s.turn]? = some ag →
    Memory.wf s.params.defaultGain s.mem → dev.toNat ≤ 0x7F → nh.toNat * 256 + nl.toNat = data.length →
    (∀ rest, decode (0x30 :: dev :: nh :: nl :: data ++ rest) = .cmd (.busWrite dev data) rest) ∧
    (s.transportDraws.head? = some true →
      exec (.busWrite dev data) s = .next (s.dropDraw.afterResult ag (.err .transportFailure))) ∧
    (s.transportDraws.head? ≠ some true →
      ∃ u, s.dropDraw.Stored u ((data.headD 0).toNat) data.tail ∧
        exec (.busWrite dev data) s = .next (u.afterResult ag (.ok .unit)) ∧
        ∀ reg bytes, data = reg :: bytes → exec (.busWrite dev data) s = exec (.rfWrite reg bytes) s.dropDraw)

/-- R161: opcode 0x31; with one write byte, the register, exactly what RF_READ reads from there; a failing draw gives
TransportFailure; a write list of another length is refused. -/
def Obligations.BusWriteThenReadReads : Prop :=
  ∀ (dev reg : Byte) (m : U16) (s : State) (ag : Agent), s.agents[s.turn]? = some ag → dev.toNat ≤ 0x7F →
    (∀ mh ml rest, m.toNat = mh.toNat * 256 + ml.toNat →
      decode (0x31 :: dev :: 0 :: 1 :: reg :: mh :: ml :: rest) = .cmd (.busWriteThenRead dev [reg] m) rest) ∧
    (s.transportDraws.head? = some true →
      exec (.busWriteThenRead dev [reg] m) s = .next (s.dropDraw.afterResult ag (.err .transportFailure))) ∧
    (s.transportDraws.head? ≠ some true →
      ∃ out : List Byte, out.length = m.toNat ∧
        (∀ j, j < m.toNat → out[j]? =
          some (if reg.toNat + j ≤ 255 then Memory.read s.params.defaultGain s.mem (reg.toNat + j) else 0x00)) ∧
        exec (.busWriteThenRead dev [reg] m) s = .next (s.dropDraw.afterResult ag (.ok (.bytes out))) ∧
        exec (.busWriteThenRead dev [reg] m) s = exec (.rfRead reg m) s.dropDraw) ∧
    ∀ data : List Byte, data.length ≤ 65535 → data.length ≠ 1 →
      exec (.busWriteThenRead dev data m) s = .next (s.afterStop ag (.refused (.illFormed [.bwrLen])))

/-- R162: opcode 0x32; always Unimplemented, with the device operand recorded, whatever the list and whatever the transport draw;
the array, `pc`, the log and the draws are left. -/
def Obligations.BusTransactionFaults : Prop :=
  ∀ (dev nh nl : Byte) (data : List Byte) (s : State) (ag : Agent), s.agents[s.turn]? = some ag →
    dev.toNat ≤ 0x7F → nh.toNat * 256 + nl.toNat = data.length →
    (∀ rest, decode (0x32 :: dev :: nh :: nl :: data ++ rest) = .cmd (.busTransaction dev data) rest) ∧
    exec (.busTransaction dev data) s = .next (s.afterStop ag (.unimplemented dev))

/-- R163: any 7-bit device operand of BUS_WRITE and BUS_WRITE_THEN_READ reaches the same array, and no command depends on
DEVICE_ADDRESS. Of BUS_TRANSACTION the operand reaches nothing but the record of its stop (R241). -/
def Obligations.DeviceAddressIgnored : Prop :=
  (∀ (dev dev' : Byte) (data : List Byte) (m : U16) (s : State), dev.toNat ≤ 0x7F → dev'.toNat ≤ 0x7F →
    data.length = 1 → exec (.busWriteThenRead dev data m) s = exec (.busWriteThenRead dev' data m) s) ∧
  (∀ (dev dev' : Byte) (data : List Byte) (s : State), dev.toNat ≤ 0x7F → dev'.toNat ≤ 0x7F →
    data.length ≤ 65535 → exec (.busWrite dev data) s = exec (.busWrite dev' data) s) ∧
  (∀ (dev dev' : Byte) (data : List Byte) (s : State) (ag : Agent), s.agents[s.turn]? = some ag →
    dev.toNat ≤ 0x7F → dev'.toNat ≤ 0x7F → data.length ≤ 65535 →
    ∃ (t : State) (stopped : Agent), exec (.busTransaction dev data) s = .next t ∧ t.agents[s.turn]? = some stopped ∧
      exec (.busTransaction dev' data) s = .next (t.setAgent s.turn { stopped with stop := some (.unimplemented dev') })) ∧
  ∀ (a : BitVec 7) (i : Instr) (s t : State), exec i s = .next t →
    exec i { s with params := { s.params with deviceAddress := a } } =
      .next { t with params := { t.params with deviceAddress := a } }

/-! ## Control surface -/

/-- R180 and R183: opcodes 0x40 and 0x43; the value masked to 12 bits is stored big-endian in its register, whatever the transport
draws, and nothing else changes. -/
def Obligations.ControlSetsU12 : Prop :=
  ∀ p ∈ [(0x40, Instr.setRawAngle, 0x0C), (0x43, Instr.setMagnitude, 0x1B)],
  ∀ (hi lo : Byte) (v : U16) (s : State) (ag : Agent), s.agents[s.turn]? = some ag →
    Memory.wf s.params.defaultGain s.mem → v.toNat = hi.toNat * 256 + lo.toNat →
    (∀ rest, decode (p.1 :: hi :: lo :: rest) = .cmd (p.2.1 v) rest) ∧
    ∃ u, s.Stored u p.2.2 [BitVec.ofNat 8 (v.toNat % 4096 / 256), BitVec.ofNat 8 (v.toNat % 256)] ∧
      exec (p.2.1 v) s = .next (u.afterResult ag (.ok .unit))

/-- R181: opcode 0x41; the whole status byte is overwritten with the encoded triple; other operand bytes are refused. -/
def Obligations.SetStatusStores : Prop :=
  ∀ (d w st : Byte) (s : State) (ag : Agent), s.agents[s.turn]? = some ag →
    Memory.wf s.params.defaultGain s.mem →
    (∀ rest, decode (0x41 :: d :: w :: st :: rest) = .cmd (.setStatus d w st) rest) ∧
    (d.toNat ≤ 1 ∧ w.toNat ≤ 1 ∧ st.toNat ≤ 1 →
      ∃ u, s.Stored u 0x0B [BitVec.ofNat 8 (32 * d.toNat + 16 * w.toNat + 8 * st.toNat)] ∧
        exec (.setStatus d w st) s = .next (u.afterResult ag (.ok .unit))) ∧
    (¬ (d.toNat ≤ 1 ∧ w.toNat ≤ 1 ∧ st.toNat ≤ 1) →
      exec (.setStatus d w st) s = .next (s.afterStop ag (.refused (.illFormed [.bool]))))

/-- R182: opcode 0x42; the byte is stored at 0x1A as it stands. -/
def Obligations.SetGainStores : Prop :=
  ∀ (gain : Byte) (s : State) (ag : Agent), s.agents[s.turn]? = some ag →
    Memory.wf s.params.defaultGain s.mem →
    (∀ rest, decode (0x42 :: gain :: rest) = .cmd (.setGain gain) rest) ∧
    ∃ u, s.Stored u 0x1A [gain] ∧ exec (.setGain gain) s = .next (u.afterResult ag (.ok .unit))

/-! ## Typed accessors -/

/-- R203, R205, R207, R212, R213, R215: the six getters of 12-bit registers, by opcode and base address; the pair big-endian,
masked; a failing draw gives TransportFailure and nothing is decoded (R201). -/
def Obligations.GettersOfU12 : Prop :=
  ∀ p ∈ [(0x51, Instr.getZeroPosition, 0x01), (0x53, Instr.getMaxPosition, 0x03), (0x55, Instr.getMaxAngle, 0x05),
    (0x5A, Instr.getRawAngle, 0x0C), (0x5B, Instr.getAngle, 0x0E), (0x5D, Instr.getMagnitude, 0x1B)],
  ∀ (s : State) (ag : Agent), s.agents[s.turn]? = some ag →
    (∀ rest, decode (p.1 :: rest) = .cmd p.2.1 rest) ∧
    (s.transportDraws.head? = some true →
      exec p.2.1 s = .next (s.dropDraw.afterResult ag (.err .transportFailure))) ∧
    (s.transportDraws.head? ≠ some true →
      exec p.2.1 s = .next (s.dropDraw.afterResult ag (.ok (.u16
        (BitVec.ofNat 16 (((s.byteAt p.2.2).toNat * 256 + (s.byteAt (p.2.2 + 1)).toNat) % 4096))))))

/-- R202, R211, R214: the three getters of one byte: the burn counter's low two bits, the status triple, the gain as it stands. -/
def Obligations.GettersOfOneByte : Prop :=
  ∀ p ∈ [(0x50, Instr.getBurnCount, 0x00, fun b : Byte => Value.u8 (BitVec.ofNat 8 (b.toNat % 4))),
    (0x59, Instr.getStatus, 0x0B, fun b : Byte => Value.status
      ⟨decide (b.toNat / 32 % 2 = 1), decide (b.toNat / 16 % 2 = 1), decide (b.toNat / 8 % 2 = 1)⟩),
    (0x5C, Instr.getGain, 0x1A, fun b : Byte => Value.u8 b)],
  ∀ (s : State) (ag : Agent), s.agents[s.turn]? = some ag →
    (∀ rest, decode (p.1 :: rest) = .cmd p.2.1 rest) ∧
    (s.transportDraws.head? = some true →
      exec p.2.1 s = .next (s.dropDraw.afterResult ag (.err .transportFailure))) ∧
    (s.transportDraws.head? ≠ some true →
      exec p.2.1 s = .next (s.dropDraw.afterResult ag (.ok (p.2.2.2 (s.byteAt p.2.2.1)))))

/-- R209: opcode 0x57; the configuration of the pair at 0x07 and 0x08, hi[7:6] ignored, output-stage 0b11 as 0b00. -/
def Obligations.GetConfigReads : Prop :=
  ∀ (s : State) (ag : Agent), s.agents[s.turn]? = some ag →
    (∀ rest, decode (0x57 :: rest) = .cmd .getConfig rest) ∧
    (s.transportDraws.head? = some true →
      exec .getConfig s = .next (s.dropDraw.afterResult ag (.err .transportFailure))) ∧
    (s.transportDraws.head? ≠ some true →
      ∃ c, ConfigurationOf s.params.fieldCodes (s.byteAt 0x07).toNat (s.byteAt 0x08).toNat c ∧
        exec .getConfig s = .next (s.dropDraw.afterResult ag (.ok (.config c))))

/-- R204, R206, R208: the three setters of 12-bit registers, by opcode and base address; the value masked, big-endian; a failing
draw gives TransportFailure and leaves the array (R201). -/
def Obligations.SettersOfU12 : Prop :=
  ∀ p ∈ [(0x52, Instr.setZeroPosition, 0x01), (0x54, Instr.setMaxPosition, 0x03), (0x56, Instr.setMaxAngle, 0x05)],
  ∀ (hi lo : Byte) (v : U16) (s : State) (ag : Agent), s.agents[s.turn]? = some ag →
    Memory.wf s.params.defaultGain s.mem → v.toNat = hi.toNat * 256 + lo.toNat →
    (∀ rest, decode (p.1 :: hi :: lo :: rest) = .cmd (p.2.1 v) rest) ∧
    (s.transportDraws.head? = some true →
      exec (p.2.1 v) s = .next (s.dropDraw.afterResult ag (.err .transportFailure))) ∧
    (s.transportDraws.head? ≠ some true →
      ∃ u, s.dropDraw.Stored u p.2.2 [BitVec.ofNat 8 (v.toNat % 4096 / 256), BitVec.ofNat 8 (v.toNat % 256)] ∧
        exec (p.2.1 v) s = .next (u.afterResult ag (.ok .unit)))

/-- R210: opcode 0x58; both configuration bytes are overwritten in one call, hi[7:6] with 0, the old bytes not read; an operand out
of its range is refused. -/
def Obligations.SetConfigStores : Prop :=
  ∀ (pm hyst outs pwmf sf fth wd : Byte) (s : State) (ag : Agent), s.agents[s.turn]? = some ag →
    Memory.wf s.params.defaultGain s.mem → s.params.fieldCodes.Bijective →
    (∀ rest, decode (0x58 :: pm :: hyst :: outs :: pwmf :: sf :: fth :: wd :: rest) =
      .cmd (.setConfig pm hyst outs pwmf sf fth wd) rest) ∧
    (pm.toNat ≤ 3 ∧ hyst.toNat ≤ 3 ∧ outs.toNat ≤ 2 ∧ pwmf.toNat ≤ 3 ∧ sf.toNat ≤ 3 ∧ fth.toNat ≤ 7 ∧ wd.toNat ≤ 1 →
      (s.transportDraws.head? = some true →
        exec (.setConfig pm hyst outs pwmf sf fth wd) s =
          .next (s.dropDraw.afterResult ag (.err .transportFailure))) ∧
      (s.transportDraws.head? ≠ some true →
        ∃ u, s.dropDraw.Stored u 0x07 [BitVec.ofNat 8 (32 * wd.toNat + 4 * fth.toNat + sf.toNat),
            BitVec.ofNat 8 (64 * pwmf.toNat + 16 * outs.toNat + 4 * hyst.toNat + pm.toNat)] ∧
          exec (.setConfig pm hyst outs pwmf sf fth wd) s = .next (u.afterResult ag (.ok .unit)))) ∧
    (¬ (pm.toNat ≤ 3 ∧ hyst.toNat ≤ 3 ∧ outs.toNat ≤ 2 ∧ pwmf.toNat ≤ 3 ∧ sf.toNat ≤ 3 ∧ fth.toNat ≤ 7 ∧
        wd.toNat ≤ 1) →
      ∃ failed, exec (.setConfig pm hyst outs pwmf sf fth wd) s =
        .next (s.afterStop ag (.refused (.illFormed failed))))

/-- R216 and R217: opcodes 0x5E and 0x5F; the commit code is stored at 0xFF and nothing else changes, the burn counter neither. -/
def Obligations.CommitsOnlyStore : Prop :=
  ∀ p ∈ [(0x5E, Instr.commitAngle, (0x80 : Byte)), (0x5F, Instr.commitSettings, 0x40)],
  ∀ (s : State) (ag : Agent), s.agents[s.turn]? = some ag → Memory.wf s.params.defaultGain s.mem →
    (∀ rest, decode (p.1 :: rest) = .cmd p.2.1 rest) ∧
    (s.transportDraws.head? = some true →
      exec p.2.1 s = .next (s.dropDraw.afterResult ag (.err .transportFailure))) ∧
    (s.transportDraws.head? ≠ some true →
      ∃ u, s.dropDraw.Stored u 0xFF [p.2.2] ∧ u.byteAt 0x00 = s.byteAt 0x00 ∧
        exec p.2.1 s = .next (u.afterResult ag (.ok .unit)))

/-- R200: a setter is BUS_WRITE on DEVICE_ADDRESS of the address and the encoded bytes, and a getter is BUS_WRITE_THEN_READ of
the register's bytes with the bytes decoded: the two leave the same state but for the value logged, and where the draw fails
the same state. -/
def Obligations.AccessorsAreOneBusCall : Prop :=
  ∀ (s : State) (ag : Agent), s.agents[s.turn]? = some ag →
    let dev : Byte := BitVec.ofNat 8 s.params.deviceAddress.toNat
    let t := s.params.fieldCodes
    let pairs : List (Instr × Byte × (Byte → Byte → Value)) :=
      [(.getZeroPosition, 0x01, fun hi lo => .u16 (decodeU12 hi lo)), (.getMaxPosition, 0x03, fun hi lo => .u16 (decodeU12 hi lo)),
       (.getMaxAngle, 0x05, fun hi lo => .u16 (decodeU12 hi lo)), (.getRawAngle, 0x0C, fun hi lo => .u16 (decodeU12 hi lo)),
       (.getAngle, 0x0E, fun hi lo => .u16 (decodeU12 hi lo)), (.getMagnitude, 0x1B, fun hi lo => .u16 (decodeU12 hi lo)),
       (.getConfig, 0x07, fun hi lo => .config (decodeConfiguration t hi lo))]
    let bytes : List (Instr × Byte × (Byte → Value)) :=
      [(.getBurnCount, 0x00, fun b => .u8 (decodeBurnCount b)), (.getStatus, 0x0B, fun b => .status (decodeStatus b)),
       (.getGain, 0x1A, .u8)]
    (∀ p ∈ [(Instr.setZeroPosition, (0x01 : Byte)), (Instr.setMaxPosition, 0x03), (Instr.setMaxAngle, 0x05)],
      ∀ v : U16, exec (p.1 v) s = exec (.busWrite dev (p.2 :: encodeU12 v)) s) ∧
    (∀ pm hyst outs pwmf sf fth wd, (Instr.setConfig pm hyst outs pwmf sf fth wd).WellFormed →
      exec (.setConfig pm hyst outs pwmf sf fth wd) s =
        exec (.busWrite dev (0x07 :: encodeConfiguration t (configOperands t pm hyst outs pwmf sf fth wd))) s) ∧
    exec .commitAngle s = exec (.busWrite dev [0xFF, 0x80]) s ∧
    exec .commitSettings s = exec (.busWrite dev [0xFF, 0x40]) s ∧
    (s.transportDraws.head? = some true →
      (∀ p ∈ pairs, exec p.1 s = exec (.busWriteThenRead dev [p.2.1] 2) s) ∧
      ∀ p ∈ bytes, exec p.1 s = exec (.busWriteThenRead dev [p.2.1] 1) s) ∧
    (s.transportDraws.head? ≠ some true →
      (∀ p ∈ pairs, ∃ (u : State) (hi lo : Byte),
        exec (.busWriteThenRead dev [p.2.1] 2) s = .next (u.afterResult ag (.ok (.bytes [hi, lo]))) ∧
          exec p.1 s = .next (u.afterResult ag (.ok (p.2.2 hi lo)))) ∧
      ∀ p ∈ bytes, ∃ (u : State) (b : Byte),
        exec (.busWriteThenRead dev [p.2.1] 1) s = .next (u.afterResult ag (.ok (.bytes [b]))) ∧
          exec p.1 s = .next (u.afterResult ag (.ok (p.2.2 b))))

/-- R218: no typed accessor changes a byte of a register that is read-only on the chip, and only the two commit commands change the
commit trigger; the generic writes can still store any byte there. -/
def Obligations.AccessorsKeepReadOnlyRegisters : Prop :=
  (∀ (i : Instr) (s t : State), 0x50 ≤ i.opcode.byte.toNat → Memory.wf s.params.defaultGain s.mem →
    exec i s = .next t →
    (∀ x ∈ [0x00, 0x0B, 0x0C, 0x0D, 0x0E, 0x0F, 0x1A, 0x1B, 0x1C], t.byteAt x = s.byteAt x) ∧
    (i ≠ .commitAngle → i ≠ .commitSettings → t.byteAt 0xFF = s.byteAt 0xFF)) ∧
  ∀ (b dev : Byte) (s : State) (ag : Agent), s.agents[s.turn]? = some ag → Memory.wf s.params.defaultGain s.mem →
    (∃ t, exec (.rfWrite 0xFF [b]) s = .next t ∧ t.byteAt 0xFF = b) ∧
    (dev.toNat ≤ 0x7F → s.transportDraws.head? ≠ some true →
      ∃ t, exec (.busWrite dev [0xFF, b]) s = .next t ∧ t.byteAt 0xFF = b)

/-- R242, R201, R164, R246: a failing transport draw makes a well-formed command of the bus or a typed accessor log
TransportFailure: `pc` advances and the array is left. In every other case the command logs nothing or one Ok result, and no
other agent's log changes. That a command which makes no bus call takes no draw is read from R164 and R246 (DEDUCED, log 27). -/
def Obligations.TransportFailureIsAResult : Prop :=
  ∀ (i : Instr) (s : State) (ag : Agent), s.agents[s.turn]? = some ag → i.WellFormed →
    (Opcode.makesBusCall i.opcode = true ↔
      (∃ dev data, i = .busWrite dev data) ∨ (∃ dev data m, i = .busWriteThenRead dev data m) ∨
        0x50 ≤ i.opcode.byte.toNat) ∧
    (Opcode.makesBusCall i.opcode = true → s.transportDraws.head? = some true →
      exec i s = .next (s.dropDraw.afterResult ag (.err .transportFailure))) ∧
    ∀ t, exec i s = .next t →
      (¬ (Opcode.makesBusCall i.opcode = true ∧ s.transportDraws.head? = some true) →
        ∃ ag', t.agents = s.agents.set s.turn ag' ∧ (ag'.res = ag.res ∨ ∃ v, ag'.res = ag.res ++ [.ok v])) ∧
      (Opcode.makesBusCall i.opcode = false → t.transportDraws = s.transportDraws)

/-! ## The step -/

/-- When the bytes at an allowed agent's `pc` decode to a command and the scheduler picks the agent, the step is that command's
meaning, on the state with the turn given and the pick used up (R240, R71). -/
def Obligations.StepRunsDecodedCommand : Prop :=
  ∀ (s : State) (k : Nat) (sch : List Nat) (ag : Agent) (before : List Instr) (bytes rest : List Byte) (i : Instr),
    s.schedule = k :: sch → s.agents[k]? = some ag → ag.halted = false →
    (∀ j ∈ before, j.WellFormed) → ag.prog = before.flatMap encode ++ bytes → ag.pc = before.length →
    decode bytes = .cmd i rest →
    step s = exec i { s with turn := k, schedule := sch }

/-- R58, R240: the scheduler may pick any allowed agent; where it names one that is not allowed, or its picks are used up, the
step is still a step of some allowed agent. (Which one then is the model's choice: log 6.) -/
def Obligations.AnyAllowedAgentMayMove : Prop :=
  ∀ (s : State) (k : Nat) (ag : Agent), s.agents[k]? = some ag → ag.halted = false → ag.pc < ag.commands.length →
    (∀ sch : List Nat, ∃ c, ag.commands[ag.pc]? = some c ∧
      step { s with schedule := k :: sch } = runFetched c { s with turn := k, schedule := sch }) ∧
    ∃ (j : Nat) (aj : Agent) (c : Fetched), s.agents[j]? = some aj ∧ aj.halted = false ∧ aj.commands[aj.pc]? = some c ∧
      step s = runFetched c (s.grant j)

/-- R246, R243: a step of the agent that moves has exactly the outcome the order of the checks gives its command, and each outcome
leaves the agent, the marks and the array as R240, R241, R242 and R244 say. -/
def Obligations.OutcomeOrder : Prop :=
  ∀ (s : State) (k : Nat) (ag : Agent) (c : Fetched), s.chosen = some k → s.agents[k]? = some ag →
    ag.commands[ag.pc]? = some c →
    ∃ t, step s = .next t ∧
      match outcomeOf c (s.transportDraws.headD false) with
      | .refused => ∃ why, t.agents = s.agents.set k { ag with halted := true, stop := some (.refused why) } ∧
          t.refused = true ∧ t.fault = s.fault ∧ t.mem = s.mem
      | .unimplemented => ∃ dev, t.agents = s.agents.set k { ag with halted := true, stop := some (.unimplemented dev) } ∧
          t.fault = true ∧ t.refused = s.refused ∧ t.mem = s.mem
      | .transportFailure => t.agents = s.agents.set k { ag with pc := ag.pc + 1, res := ag.res ++ [.err .transportFailure] } ∧
          t.fault = s.fault ∧ t.refused = s.refused ∧ t.mem = s.mem
      | .ok => (∃ v, t.agents = s.agents.set k { ag with pc := ag.pc + 1, res := ag.res ++ [.ok v] }) ∧
          t.fault = s.fault ∧ t.refused = s.refused

/-- R255: there is no step exactly when no agent has an allowed one; a step never faults the interface. -/
def Obligations.RunEndsWhenNoAgentAllowed : Prop :=
  ∀ s : State,
    ((∀ ag ∈ s.agents, ag.halted = true ∨ ag.commands.length ≤ ag.pc) ↔ ∀ t, step s ≠ .next t) ∧
    ∀ f, step s ≠ .fault f

/-- R252, R62: a step changes no agent but the one that moves, no agent's program, not the number of agents and not the session's
parameters; of the agent that moves it keeps or extends the log. -/
def Obligations.StepChangesOnlyItsAgent : Prop :=
  ∀ s t : State, step s = .next t →
    t.params = s.params ∧ t.agents.length = s.agents.length ∧
    ∃ k, s.chosen = some k ∧ t.turn = k ∧ (∀ j, j ≠ k → t.agents[j]? = s.agents[j]?) ∧
      ∃ ag ag', s.agents[k]? = some ag ∧ t.agents[k]? = some ag' ∧ ag'.prog = ag.prog ∧
        (ag'.res = ag.res ∨ ∃ r, ag'.res = ag.res ++ [r])

/-- R30, R244, R248: over any number of steps a raised mark stays raised, and a halted agent stays exactly as it is. -/
def Obligations.StopsAreForever : Prop :=
  ∀ (n : Nat) (s t : State), State.Reaches n s t →
    (s.fault = true → t.fault = true) ∧ (s.refused = true → t.refused = true) ∧
    ∀ (k : Nat) (ag : Agent), s.agents[k]? = some ag → ag.halted = true → t.agents[k]? = some ag

/-- The invariant (memory in canonical form; each agent's fields agree; a mark is raised exactly when some agent stopped for
its reason) is kept by every step from every state that has it (R30, R241, R244, R247, R28). -/
def Obligations.StepKeepsInvariant : Prop :=
  ∀ s t : State, s.Inv → step s = .next t → t.Inv

/-- The invariant holds at the start of every session, the reset state among them (R45, R46). -/
def Obligations.SessionStartHasInvariant : Prop :=
  (∀ (p : Params) (progs : List (List Byte)) (sch : List Nat) (draws : List Bool),
    (State.session p progs sch draws).Inv) ∧ State.reset.Inv

/-- 60_exceptions R255: a run that has ended in a state of the invariant ended well exactly when no mark is raised; each agent then ran
its whole program. -/
def Obligations.EndsWellIffNoMark : Prop :=
  ∀ s : State, s.Inv → s.Ended → (s.EndsWell ↔ s.fault = false ∧ s.refused = false)

/-- A run of finite command lists ends after at most the sum of their lengths steps (70_reset R285, its last clause), and each
step uses up one command: from any state, no more steps than commands are left. -/
def Obligations.RunsAreBounded : Prop :=
  ∀ (n : Nat) (s t : State), State.Reaches n s t →
    n + t.remaining ≤ s.remaining ∧ s.remaining ≤ (s.agents.map fun ag => ag.commands.length).sum

/-- 20_memory R58, its clause on reads: after any run, in any order of the agents, each byte of the array is what the last store to
it in the run put there, or what it was before the run where there was none. The stores of a command are those of `storeOf`. -/
def Obligations.ReadsSeeTheLastStore : Prop :=
  ∀ (n : Nat) (s t : State), Memory.wf s.params.defaultGain s.mem → State.Reaches n s t →
    ∀ x, t.byteAt x = (lastStored (s.stores n) x).getD (s.byteAt x)

/-- 20_memory R64: where no program uses the generic writes, the raw angle and the magnitude are, after any run in any order, the
pair they were or the pair of exactly one control update of some program, and the gain is what it was or what one SET_GAIN
wrote: no quantity is ever half of one update and half of another. -/
def Obligations.NoTearing : Prop :=
  ∀ (n : Nat) (s t : State), Memory.wf s.params.defaultGain s.mem →
    (∀ ag ∈ s.agents, ∀ i, .cmd i ∈ ag.commands → (∀ a d, i ≠ .rfWrite a d) ∧ ∀ a d, i ≠ .busWrite a d) →
    State.Reaches n s t →
    (∀ p ∈ [(Instr.setRawAngle, 0x0C), (Instr.setMagnitude, 0x1B)],
      (t.byteAt p.2 = s.byteAt p.2 ∧ t.byteAt (p.2 + 1) = s.byteAt (p.2 + 1)) ∨
      ∃ ag ∈ s.agents, ∃ v : U16, .cmd (p.1 v) ∈ ag.commands ∧
        t.byteAt p.2 = BitVec.ofNat 8 (v.toNat % 4096 / 256) ∧ t.byteAt (p.2 + 1) = BitVec.ofNat 8 (v.toNat % 256)) ∧
    (t.byteAt 0x1A = s.byteAt 0x1A ∨ ∃ ag ∈ s.agents, ∃ g, .cmd (.setGain g) ∈ ag.commands ∧ t.byteAt 0x1A = g)

/-- 70_reset R280: two one-byte reads of the raw angle can tear. From the start of any session in which agent 0 runs SET_RAW_ANGLE
and agent 1 reads 0x0C and then 0x0D, the order 1, 0, 1 gives agent 1 the old high byte and the new low byte. -/
def Obligations.ReadsAcrossCallsCanTear : Prop :=
  ∀ (p : Params) (v : U16) (sch : List Nat) (draws : List Bool),
    ∃ t, State.Reaches 3 (State.session p
        [encode (.setRawAngle v), encode (.rfRead 0x0C 1) ++ encode (.rfRead 0x0D 1)] (1 :: 0 :: 1 :: sch) draws) t ∧
      t.agents.map Agent.res =
        [[.ok .unit], [.ok (.bytes [0x00]), .ok (.bytes [BitVec.ofNat 8 (v.toNat % 256)])]]

/-- 70_reset R281: a configuration write that falls between another agent's GET_CONFIG and SET_CONFIG is overwritten: after the
order 0, 1, 0 the array holds agent 0's configuration, whatever agent 1 wrote. -/
def Obligations.ConfigUpdateCanBeLost : Prop :=
  ∀ (p : Params) (i j : Instr) (sch : List Nat), p.fieldCodes.Bijective → i.WellFormed → j.WellFormed →
    i.opcode = .setConfig → j.opcode = .setConfig →
    ∃ t, State.Reaches 3 (State.session p [encode .getConfig ++ encode i, encode j] (0 :: 1 :: 0 :: sch) []) t ∧
      (∀ pm hyst outs pwmf sf fth wd, i = .setConfig pm hyst outs pwmf sf fth wd →
        t.byteAt 0x07 = BitVec.ofNat 8 (32 * wd.toNat + 4 * fth.toNat + sf.toNat) ∧
        t.byteAt 0x08 = BitVec.ofNat 8 (64 * pwmf.toNat + 16 * outs.toNat + 4 * hyst.toNat + pm.toNat)) ∧
      t.agents.map Agent.pc = [2, 1]

/-- 70_reset R282: writing back the configuration that GET_CONFIG decodes changes the stored bytes in two ways only: bits [7:6] of
the high byte become 0, and output-stage code 0b11 becomes 0b00. -/
def Obligations.WriteBackNormalises : Prop :=
  ∀ (pm hyst outs pwmf sf fth wd : Byte) (s u t : State) (ag ag' : Agent) (c : Configuration),
    Memory.wf s.params.defaultGain s.mem → s.params.fieldCodes.Bijective →
    s.agents[s.turn]? = some ag → exec .getConfig s = .next u → u.agents[u.turn]? = some ag' →
    ag'.res = ag.res ++ [.ok (.config c)] →
    (Instr.setConfig pm hyst outs pwmf sf fth wd).WellFormed →
    configOperands s.params.fieldCodes pm hyst outs pwmf sf fth wd = c →
    u.transportDraws.head? ≠ some true → exec (.setConfig pm hyst outs pwmf sf fth wd) u = .next t →
    t.byteAt 0x07 = s.byteAt 0x07 &&& 0x3F ∧
    t.byteAt 0x08 = if (s.byteAt 0x08).toNat / 16 % 4 = 3 then s.byteAt 0x08 &&& 0xCF else s.byteAt 0x08

/-! ## Reset -/

/-- R45 and R46: the bytes of the array and the rest of the state when a session creates the space, whatever the parameters, the
programs and the inputs. -/
def Obligations.ResetValues : Prop :=
  ∀ (p : Params) (progs : List (List Byte)) (sch : List Nat) (draws : List Bool),
    let s := State.session p progs sch draws
    s.byteAt 0x0B = 0x20 ∧ s.byteAt 0x07 = 0x20 ∧ s.byteAt 0x1A = p.defaultGain ∧
    (∀ x, x ≤ 255 → x ≠ 0x0B → x ≠ 0x07 → x ≠ 0x1A → s.byteAt x = 0x00) ∧
    s.fault = false ∧ s.refused = false ∧ s.agents.length = progs.length ∧
    ∀ (k : Nat) (ag : Agent), s.agents[k]? = some ag → progs[k]? = some ag.prog ∧ ag.pc = 0 ∧ ag.res = [] ∧ ag.halted = false

/-- R47: what the getters give right after reset: the codec on the reset bytes, under the default FIELD_CODES. -/
def Obligations.ResetDecodes : Prop :=
  let s := State.reset
  decodeStatus (s.byteAt 0x0B) = ⟨true, false, false⟩ ∧
  decodeConfiguration s.params.fieldCodes (s.byteAt 0x07) (s.byteAt 0x08) =
    ⟨.NOM, .Off, .AnalogFull, .Hz115, .X16, .SlowOnly, true⟩ ∧
  s.byteAt 0x1A = s.params.defaultGain ∧
  (∀ a ∈ [0x01, 0x03, 0x05, 0x0C, 0x0E, 0x1B], decodeU12 (s.byteAt a) (s.byteAt (a + 1)) = 0) ∧
  decodeBurnCount (s.byteAt 0x00) = 0
end

