-- ==== Sys2Proof/Laws/Decode.lean ====
section
/-! SUPPORT. The laws of the command format's parts: 16-bit operands split and joined, each opcode byte selecting its own row,
what a decoded command leaves of the stream, and a stream read as a list of commands. -/

namespace Sys2Proof

@[simp] theorem be16_toNat (hi lo : Byte) : (be16 hi lo).toNat = hi.toNat * 256 + lo.toNat := by
  unfold be16
  rw [BitVec.toNat_append, ← Nat.shiftLeft_add_eq_or_of_lt lo.isLt, Nat.shiftLeft_eq]

theorem hi8_toNat (v : U16) : (hi8 v).toNat = v.toNat / 256 := by
  simp only [hi8, BitVec.extractLsb'_toNat, Nat.shiftRight_eq_div_pow]
  have := v.isLt
  omega

theorem lo8_toNat (v : U16) : (lo8 v).toNat = v.toNat % 256 := by
  simp [lo8, BitVec.extractLsb'_toNat]

/-- Joining the two bytes of a 16-bit value gives it back (R9). -/
@[simp] theorem be16_hi8_lo8 (v : U16) : be16 (hi8 v) (lo8 v) = v := by
  apply BitVec.eq_of_toNat_eq
  rw [be16_toNat, hi8_toNat, lo8_toNat]
  omega

@[simp] theorem hi8_be16 (hi lo : Byte) : hi8 (be16 hi lo) = hi := by
  apply BitVec.eq_of_toNat_eq
  rw [hi8_toNat, be16_toNat]
  have := lo.isLt
  omega

@[simp] theorem lo8_be16 (hi lo : Byte) : lo8 (be16 hi lo) = lo := by
  apply BitVec.eq_of_toNat_eq
  rw [lo8_toNat, be16_toNat]
  have := lo.isLt
  omega

/-- The length field of a list that fits it is the list's length. -/
theorem length_n16 {data : List Byte} (h : data.length ≤ Config.maxLen) :
    (BitVec.ofNat 16 data.length).toNat = data.length := by
  rw [BitVec.toNat_ofNat]
  exact Nat.mod_eq_of_lt (by unfold Config.maxLen at h; omega)

/-- A data list passes its length check exactly when it fits. -/
theorem lenChecks_eq_nil {data : List Byte} : lenChecks data = [] ↔ data.length ≤ Config.maxLen := by
  unfold lenChecks Check.unless
  by_cases h : data.length ≤ Config.maxLen <;> simp [h]

/-- The opcode byte of an operation selects its row (R75). -/
theorem rowOfByte_byte (o : Opcode) : ∃ f, rowOfByte o.byte = some ⟨o.byte, o, f⟩ := by
  cases o <;> exact ⟨_, rfl⟩

/-- Two operations have two opcode bytes. -/
theorem opcode_byte_inj {o o' : Opcode} (h : o.byte = o'.byte) : o = o' := by
  obtain ⟨f, hf⟩ := rowOfByte_byte o
  obtain ⟨f', hf'⟩ := rowOfByte_byte o'
  rw [h, hf'] at hf
  injection hf with hf
  injection hf with _ h2
  exact h2.symm

/-- Decoding reads the operands of the operation that byte 0 names. -/
theorem decode_byte (o : Opcode) (operands : List Byte) :
    decode (o.byte :: operands) = parseOperands o operands := by
  obtain ⟨f, hf⟩ := rowOfByte_byte o
  simp [decode, hf]

theorem decode_of_row {b : Byte} {r : OpcodeRow} (h : rowOfByte b = some r) (operands : List Byte) :
    decode (b :: operands) = parseOperands r.op operands := by
  simp [decode, h]

theorem decode_of_no_row {b : Byte} (h : rowOfByte b = none) (operands : List Byte) :
    decode (b :: operands) = .invalid b := by
  simp [decode, h]

/-- Reading operands never gives the verdict `invalid`. -/
theorem parseOperands_ne_invalid (o : Opcode) (bs : List Byte) (b : Byte) : parseOperands o bs ≠ .invalid b := by
  intro h
  cases o <;> simp only [parseOperands] at h <;>
    (try unfold parseF1 at h) <;> (try unfold parseF2 at h) <;> (try unfold parseFV at h) <;>
    (try unfold parseFS at h) <;> (try unfold parseFC at h) <;> (try unfold parseBlock at h) <;>
    (try unfold parseFRR at h) <;> (try unfold parseFBWR at h) <;>
    first
      | contradiction
      | (split at h <;> first | contradiction | (simp only at h; split at h <;> contradiction))

/-- Reading operands leaves no more than there was. -/
theorem parseOperands_rest_le {o : Opcode} {bs rest : List Byte} {i : Instr}
    (h : parseOperands o bs = .cmd i rest) : rest.length ≤ bs.length := by
  cases o <;> simp only [parseOperands] at h <;>
    (try unfold parseF1 at h) <;> (try unfold parseF2 at h) <;> (try unfold parseFV at h) <;>
    (try unfold parseFS at h) <;> (try unfold parseFC at h) <;> (try unfold parseBlock at h) <;>
    (try unfold parseFRR at h) <;> (try unfold parseFBWR at h) <;>
    first
      | (injection h with _ h; subst h; exact Nat.le_refl _)
      | (split at h
         · first
            | (injection h with _ h; subst h; simp only [List.length_cons]; omega)
            | (simp only at h
               split at h
               · injection h with _ h; subst h; simp only [List.length_cons, List.length_drop]; omega
               · contradiction)
            | (simp only at h
               split at h
               · rename_i hd
                 injection h with _ h; subst h
                 have := congrArg List.length hd
                 simp only [List.length_cons, List.length_drop] at this ⊢; omega
               · contradiction)
         · contradiction)

/-- A decoded command takes at least one byte of the stream. -/
theorem decode_rest_lt {bs rest : List Byte} {i : Instr} (h : decode bs = .cmd i rest) : rest.length < bs.length := by
  cases bs with
  | nil => simp [decode] at h
  | cons b bs =>
    cases hr : rowOfByte b with
    | none => rw [decode_of_no_row hr] at h; contradiction
    | some r =>
      rw [decode_of_row hr] at h
      have := parseOperands_rest_le h
      simp only [List.length_cons]; omega

/-- Reading a stream as commands needs no more fuel than it has bytes. -/
theorem commandsUpTo_fuel : ∀ (n : Nat) (bs : List Byte), bs.length ≤ n → commandsUpTo n bs = commands bs := by
  have key : ∀ (n m : Nat) (bs : List Byte), bs.length ≤ n → bs.length ≤ m → commandsUpTo n bs = commandsUpTo m bs := by
    intro n
    induction n with
    | zero =>
      intro m bs hn _
      have : bs = [] := List.length_eq_zero_iff.1 (by omega)
      subst this
      cases m <;> rfl
    | succ n ih =>
      intro m bs hn hm
      cases bs with
      | nil => cases m <;> rfl
      | cons b bs =>
        cases m with
        | zero => simp at hm
        | succ m =>
          simp only [commandsUpTo]
          cases hd : decode (b :: bs) with
          | cmd i rest =>
            have := decode_rest_lt hd
            simp only [List.length_cons] at this hn hm
            simp only [ih m rest (by omega) (by omega)]
          | invalid op => rfl
          | truncated => rfl
  exact fun n bs h => key n bs.length bs h (Nat.le_refl _)

@[simp] theorem commands_nil : commands [] = [] := rfl

/-- A stream that begins with a command: it, then the commands of the rest. -/
theorem commands_of_cmd {bs rest : List Byte} {i : Instr} (h : decode bs = .cmd i rest) :
    commands bs = .cmd i :: commands rest := by
  have hlt := decode_rest_lt h
  cases bs with
  | nil => simp at hlt
  | cons b bs =>
    simp only [List.length_cons] at hlt
    show commandsUpTo (bs.length + 1) (b :: bs) = _
    simp only [commandsUpTo, h]
    rw [commandsUpTo_fuel _ _ (by omega)]

/-- A stream that begins with an unassigned opcode: one Invalid item. -/
theorem commands_of_invalid {bs : List Byte} {op : Byte} (h : decode bs = .invalid op) : commands bs = [.invalid op] := by
  cases bs with
  | nil => simp [decode] at h
  | cons b bs =>
    show commandsUpTo (bs.length + 1) (b :: bs) = _
    simp only [commandsUpTo, h]

/-- A stream that ends inside its first command: one Truncated item. -/
theorem commands_of_truncated {b : Byte} {bs : List Byte} (h : decode (b :: bs) = .truncated) :
    commands (b :: bs) = [.truncated] := by
  show commandsUpTo (bs.length + 1) (b :: bs) = _
  simp only [commandsUpTo, h]

end Sys2Proof
end

