-- ==== Sys2Proof/Laws/State.lean ====
section
/-! SUPPORT. What each named update of the state does to each field: one lemma per field and update, true by rfl. -/

namespace Sys2Proof.Machine

@[simp] theorem State.setMem_params (s : State) (m : List Host.Cell) : (s.setMem m).params = s.params := rfl
@[simp] theorem State.setMem_mem (s : State) (m : List Host.Cell) : (s.setMem m).mem = m := rfl
@[simp] theorem State.setMem_fault (s : State) (m : List Host.Cell) : (s.setMem m).fault = s.fault := rfl
@[simp] theorem State.setMem_refused (s : State) (m : List Host.Cell) : (s.setMem m).refused = s.refused := rfl
@[simp] theorem State.setMem_agents (s : State) (m : List Host.Cell) : (s.setMem m).agents = s.agents := rfl
@[simp] theorem State.setMem_turn (s : State) (m : List Host.Cell) : (s.setMem m).turn = s.turn := rfl
@[simp] theorem State.setMem_schedule (s : State) (m : List Host.Cell) : (s.setMem m).schedule = s.schedule := rfl
@[simp] theorem State.setMem_freePicks (s : State) (m : List Host.Cell) : (s.setMem m).freePicks = s.freePicks := rfl
@[simp] theorem State.setMem_transportDraws (s : State) (m : List Host.Cell) : (s.setMem m).transportDraws = s.transportDraws := rfl

@[simp] theorem State.writeBytes_params (s : State) (a : Nat) (data : List Byte) : (s.writeBytes a data).params = s.params := rfl
@[simp] theorem State.writeBytes_mem (s : State) (a : Nat) (data : List Byte) : (s.writeBytes a data).mem = Memory.writeList s.params.defaultGain s.mem a data := rfl
@[simp] theorem State.writeBytes_fault (s : State) (a : Nat) (data : List Byte) : (s.writeBytes a data).fault = s.fault := rfl
@[simp] theorem State.writeBytes_refused (s : State) (a : Nat) (data : List Byte) : (s.writeBytes a data).refused = s.refused := rfl
@[simp] theorem State.writeBytes_agents (s : State) (a : Nat) (data : List Byte) : (s.writeBytes a data).agents = s.agents := rfl
@[simp] theorem State.writeBytes_turn (s : State) (a : Nat) (data : List Byte) : (s.writeBytes a data).turn = s.turn := rfl
@[simp] theorem State.writeBytes_schedule (s : State) (a : Nat) (data : List Byte) : (s.writeBytes a data).schedule = s.schedule := rfl
@[simp] theorem State.writeBytes_freePicks (s : State) (a : Nat) (data : List Byte) : (s.writeBytes a data).freePicks = s.freePicks := rfl
@[simp] theorem State.writeBytes_transportDraws (s : State) (a : Nat) (data : List Byte) : (s.writeBytes a data).transportDraws = s.transportDraws := rfl

@[simp] theorem State.setAgent_params (s : State) (k : Nat) (ag : Agent) : (s.setAgent k ag).params = s.params := rfl
@[simp] theorem State.setAgent_mem (s : State) (k : Nat) (ag : Agent) : (s.setAgent k ag).mem = s.mem := rfl
@[simp] theorem State.setAgent_fault (s : State) (k : Nat) (ag : Agent) : (s.setAgent k ag).fault = s.fault := rfl
@[simp] theorem State.setAgent_refused (s : State) (k : Nat) (ag : Agent) : (s.setAgent k ag).refused = s.refused := rfl
@[simp] theorem State.setAgent_agents (s : State) (k : Nat) (ag : Agent) : (s.setAgent k ag).agents = s.agents.set k ag := rfl
@[simp] theorem State.setAgent_turn (s : State) (k : Nat) (ag : Agent) : (s.setAgent k ag).turn = s.turn := rfl
@[simp] theorem State.setAgent_schedule (s : State) (k : Nat) (ag : Agent) : (s.setAgent k ag).schedule = s.schedule := rfl
@[simp] theorem State.setAgent_freePicks (s : State) (k : Nat) (ag : Agent) : (s.setAgent k ag).freePicks = s.freePicks := rfl
@[simp] theorem State.setAgent_transportDraws (s : State) (k : Nat) (ag : Agent) : (s.setAgent k ag).transportDraws = s.transportDraws := rfl

@[simp] theorem State.raise_params (s : State) (f r : Bool) : (s.raise f r).params = s.params := rfl
@[simp] theorem State.raise_mem (s : State) (f r : Bool) : (s.raise f r).mem = s.mem := rfl
@[simp] theorem State.raise_fault (s : State) (f r : Bool) : (s.raise f r).fault = (s.fault || f) := rfl
@[simp] theorem State.raise_refused (s : State) (f r : Bool) : (s.raise f r).refused = (s.refused || r) := rfl
@[simp] theorem State.raise_agents (s : State) (f r : Bool) : (s.raise f r).agents = s.agents := rfl
@[simp] theorem State.raise_turn (s : State) (f r : Bool) : (s.raise f r).turn = s.turn := rfl
@[simp] theorem State.raise_schedule (s : State) (f r : Bool) : (s.raise f r).schedule = s.schedule := rfl
@[simp] theorem State.raise_freePicks (s : State) (f r : Bool) : (s.raise f r).freePicks = s.freePicks := rfl
@[simp] theorem State.raise_transportDraws (s : State) (f r : Bool) : (s.raise f r).transportDraws = s.transportDraws := rfl

@[simp] theorem State.dropDraw_params (s : State) : s.dropDraw.params = s.params := rfl
@[simp] theorem State.dropDraw_mem (s : State) : s.dropDraw.mem = s.mem := rfl
@[simp] theorem State.dropDraw_fault (s : State) : s.dropDraw.fault = s.fault := rfl
@[simp] theorem State.dropDraw_refused (s : State) : s.dropDraw.refused = s.refused := rfl
@[simp] theorem State.dropDraw_agents (s : State) : s.dropDraw.agents = s.agents := rfl
@[simp] theorem State.dropDraw_turn (s : State) : s.dropDraw.turn = s.turn := rfl
@[simp] theorem State.dropDraw_schedule (s : State) : s.dropDraw.schedule = s.schedule := rfl
@[simp] theorem State.dropDraw_freePicks (s : State) : s.dropDraw.freePicks = s.freePicks := rfl
@[simp] theorem State.dropDraw_transportDraws (s : State) : s.dropDraw.transportDraws = s.transportDraws.tail := rfl

@[simp] theorem State.grant_params (s : State) (k : Nat) : (s.grant k).params = s.params := rfl
@[simp] theorem State.grant_mem (s : State) (k : Nat) : (s.grant k).mem = s.mem := rfl
@[simp] theorem State.grant_fault (s : State) (k : Nat) : (s.grant k).fault = s.fault := rfl
@[simp] theorem State.grant_refused (s : State) (k : Nat) : (s.grant k).refused = s.refused := rfl
@[simp] theorem State.grant_agents (s : State) (k : Nat) : (s.grant k).agents = s.agents := rfl
@[simp] theorem State.grant_turn (s : State) (k : Nat) : (s.grant k).turn = k := rfl
@[simp] theorem State.grant_schedule (s : State) (k : Nat) : (s.grant k).schedule = s.schedule.tail := rfl
@[simp] theorem State.grant_freePicks (s : State) (k : Nat) : (s.grant k).freePicks = if s.schedule = [] then s.freePicks + 1 else s.freePicks := rfl
@[simp] theorem State.grant_transportDraws (s : State) (k : Nat) : (s.grant k).transportDraws = s.transportDraws := rfl

@[simp] theorem State.afterResult_params (s : State) (ag : Agent) (r : Result) : (s.afterResult ag r).params = s.params := rfl
@[simp] theorem State.afterResult_mem (s : State) (ag : Agent) (r : Result) : (s.afterResult ag r).mem = s.mem := rfl
@[simp] theorem State.afterResult_fault (s : State) (ag : Agent) (r : Result) : (s.afterResult ag r).fault = s.fault := rfl
@[simp] theorem State.afterResult_refused (s : State) (ag : Agent) (r : Result) : (s.afterResult ag r).refused = s.refused := rfl
@[simp] theorem State.afterResult_agents (s : State) (ag : Agent) (r : Result) : (s.afterResult ag r).agents = s.agents.set s.turn { ag with pc := ag.pc + 1, res := ag.res ++ [r] } := rfl
@[simp] theorem State.afterResult_turn (s : State) (ag : Agent) (r : Result) : (s.afterResult ag r).turn = s.turn := rfl
@[simp] theorem State.afterResult_schedule (s : State) (ag : Agent) (r : Result) : (s.afterResult ag r).schedule = s.schedule := rfl
@[simp] theorem State.afterResult_freePicks (s : State) (ag : Agent) (r : Result) : (s.afterResult ag r).freePicks = s.freePicks := rfl
@[simp] theorem State.afterResult_transportDraws (s : State) (ag : Agent) (r : Result) : (s.afterResult ag r).transportDraws = s.transportDraws := rfl

@[simp] theorem State.afterStop_params (s : State) (ag : Agent) (w : Stop) : (s.afterStop ag w).params = s.params := by cases w <;> rfl
@[simp] theorem State.afterStop_mem (s : State) (ag : Agent) (w : Stop) : (s.afterStop ag w).mem = s.mem := by cases w <;> rfl
@[simp] theorem State.afterStop_turn (s : State) (ag : Agent) (w : Stop) : (s.afterStop ag w).turn = s.turn := by cases w <;> rfl
@[simp] theorem State.afterStop_schedule (s : State) (ag : Agent) (w : Stop) : (s.afterStop ag w).schedule = s.schedule := by cases w <;> rfl
@[simp] theorem State.afterStop_freePicks (s : State) (ag : Agent) (w : Stop) : (s.afterStop ag w).freePicks = s.freePicks := by cases w <;> rfl
@[simp] theorem State.afterStop_transportDraws (s : State) (ag : Agent) (w : Stop) : (s.afterStop ag w).transportDraws = s.transportDraws := by cases w <;> rfl
@[simp] theorem State.afterStop_agents (s : State) (ag : Agent) (w : Stop) :
    (s.afterStop ag w).agents = s.agents.set s.turn { ag with halted := true, stop := some w } := by cases w <;> rfl
@[simp] theorem State.afterStop_fault (s : State) (ag : Agent) (w : Stop) :
    (s.afterStop ag w).fault = (s.fault || w.isFault) := by cases w <;> simp [State.afterStop, Stop.isFault]
@[simp] theorem State.afterStop_refused (s : State) (ag : Agent) (w : Stop) :
    (s.afterStop ag w).refused = (s.refused || !w.isFault) := by cases w <;> simp [State.afterStop, Stop.isFault]

/-- The invoking agent is read from the agents and the turn alone. -/
theorem State.invoker_eq (s : State) : s.invoker = s.agents[s.turn]? := rfl

@[simp] theorem State.setMem_self (s : State) : s.setMem s.mem = s := rfl

@[simp] theorem State.session_agents (p : Params) (progs : List (List Byte)) (sch : List Nat) (d : List Bool) :
    (State.session p progs sch d).agents = progs.map Agent.start := rfl
@[simp] theorem State.session_mem (p : Params) (progs : List (List Byte)) (sch : List Nat) (d : List Bool) :
    (State.session p progs sch d).mem = [] := rfl
@[simp] theorem State.session_params (p : Params) (progs : List (List Byte)) (sch : List Nat) (d : List Bool) :
    (State.session p progs sch d).params = p := rfl

end Sys2Proof.Machine
end

