-- ==== Sys2Proof/Laws/Codec.lean ====
section
/-! SUPPORT. The codec's functions as arithmetic on numbers (40_codec R100 to R107), and the operand checks as bounds (30_encoding
R74). -/

namespace Sys2Proof

theorem Check.unless_eq_nil {c : Check} {b : Bool} : Check.unless c b = [] ↔ b = true := by
  cases b <;> simp [Check.unless]

/-- A 16-bit value that is the big-endian number of two bytes. -/
theorem be16_of_toNat {hi lo : Byte} {v : U16} (h : v.toNat = hi.toNat * 256 + lo.toNat) : be16 hi lo = v := by
  apply BitVec.eq_of_toNat_eq; rw [be16_toNat, h]

/-- The three booleans pass their check exactly when each is 0x00 or 0x01. -/
theorem statusChecks_eq_nil (d w st : Byte) :
    statusChecks d w st = [] ↔ d.toNat ≤ 1 ∧ w.toNat ≤ 1 ∧ st.toNat ≤ 1 := by
  simp [statusChecks, Check.unless_eq_nil, isBool, and_assoc]

/-- Where one of them is not, the failed check is WF_BOOL. -/
theorem statusChecks_of_bad {d w st : Byte} (h : ¬ (d.toNat ≤ 1 ∧ w.toNat ≤ 1 ∧ st.toNat ≤ 1)) :
    statusChecks d w st = [.bool] := by
  rw [← statusChecks_eq_nil] at h
  unfold statusChecks Check.unless at *
  split at h
  · simp at h
  · rename_i hh; rw [if_neg hh]

/-- The seven operands of a configuration pass their checks exactly when each is in its range. -/
theorem configChecks_eq_nil (pm hyst outs pwmf sf fth wd : Byte) : configChecks pm hyst outs pwmf sf fth wd = [] ↔
    pm.toNat ≤ 3 ∧ hyst.toNat ≤ 3 ∧ outs.toNat ≤ 2 ∧ pwmf.toNat ≤ 3 ∧ sf.toNat ≤ 3 ∧ fth.toNat ≤ 7 ∧ wd.toNat ≤ 1 := by
  simp [configChecks, Check.unless_eq_nil, isBool]; tauto

/-- A bus write passes its checks when its address has 7 bits and its list fits. -/
theorem busWrite_wellFormed {dev : Byte} {data : List Byte} (hd : dev.toNat ≤ 0x7F) (hl : data.length ≤ 65535) :
    (Instr.busWrite dev data).WellFormed := by
  show devChecks dev ++ lenChecks data = []
  rw [List.append_eq_nil_iff]
  exact ⟨by simp [devChecks, Check.unless_eq_nil, hd], lenChecks_eq_nil.2 hl⟩

end Sys2Proof

namespace Sys2Proof.Machine

theorem mask12_toNat (v : U16) : (v &&& 0x0FFF).toNat = v.toNat % 4096 := by
  rw [BitVec.toNat_and]
  exact Nat.and_two_pow_sub_one_eq_mod v.toNat 12

theorem decodeU12_eq (hi lo : Byte) :
    decodeU12 hi lo = BitVec.ofNat 16 ((hi.toNat * 256 + lo.toNat) % 4096) := by
  apply BitVec.eq_of_toNat_eq
  rw [decodeU12, mask12_toNat, be16_toNat, BitVec.toNat_ofNat]
  omega

theorem encodeU12_eq (v : U16) :
    encodeU12 v = [BitVec.ofNat 8 (v.toNat % 4096 / 256), BitVec.ofNat 8 (v.toNat % 256)] := by
  simp only [encodeU12, List.cons.injEq, and_true]
  constructor <;> apply BitVec.eq_of_toNat_eq
  · rw [hi8_toNat, mask12_toNat, BitVec.toNat_ofNat]; omega
  · rw [lo8_toNat, mask12_toNat, BitVec.toNat_ofNat]; omega

/-- A bit of a byte, as arithmetic. -/
theorem getLsbD_eq_div (b : Byte) (n : Nat) : b.getLsbD n = decide (b.toNat / 2 ^ n % 2 = 1) := by
  rw [BitVec.getLsbD, Nat.testBit_eq_decide_div_mod_eq]

/-- A bit-field of a byte, as arithmetic. -/
theorem extractLsb'_eq_div (b : Byte) (i n : Nat) : (b.extractLsb' i n).toNat = b.toNat / 2 ^ i % 2 ^ n := by
  simp [BitVec.extractLsb'_toNat, Nat.shiftRight_eq_div_pow]

theorem decodeStatus_eq (b : Byte) : decodeStatus b =
    ⟨decide (b.toNat / 32 % 2 = 1), decide (b.toNat / 16 % 2 = 1), decide (b.toNat / 8 % 2 = 1)⟩ := by
  simp only [decodeStatus, getLsbD_eq_div]; norm_num

theorem boolOperand_cases {b : Byte} (h : b.toNat ≤ 1) : b = 0 ∨ b = 1 := by
  rcases (show b.toNat = 0 ∨ b.toNat = 1 by omega) with h | h
  · exact .inl (BitVec.eq_of_toNat_eq h)
  · exact .inr (BitVec.eq_of_toNat_eq h)

theorem encodeStatus_operands_eq {d w st : Byte} (h : d.toNat ≤ 1 ∧ w.toNat ≤ 1 ∧ st.toNat ≤ 1) :
    encodeStatus (statusOperands d w st) = BitVec.ofNat 8 (32 * d.toNat + 16 * w.toNat + 8 * st.toNat) := by
  rcases boolOperand_cases h.1 with rfl | rfl <;> rcases boolOperand_cases h.2.1 with rfl | rfl <;>
    rcases boolOperand_cases h.2.2 with rfl | rfl <;> decide

theorem decodeBurnCount_eq (b : Byte) : decodeBurnCount b = BitVec.ofNat 8 (b.toNat % 4) := by
  revert b; decide +kernel

/-! ## Tables -/

theorem variantOf4_at {α : Type} (t : Vector α 4) (b : Byte) (i k : Nat) (hk : b.toNat / 2 ^ i % 2 ^ 2 = k) :
    t.toList[k]? = some (variantOf4 t (b.extractLsb' i 2)) := by
  subst hk
  simp only [variantOf4, extractLsb'_eq_div]
  simp

theorem variantOf8_at {α : Type} (t : Vector α 8) (b : Byte) (i k : Nat) (hk : b.toNat / 2 ^ i % 2 ^ 3 = k) :
    t.toList[k]? = some (variantOf8 t (b.extractLsb' i 3)) := by
  subst hk
  simp only [variantOf8, extractLsb'_eq_div]
  simp

theorem outputStageOf_at (t : Vector OutputStage 3) (b : Byte) (i k : Nat) (hk : b.toNat / 2 ^ i % 2 ^ 2 = k) :
    t.toList[if k = 3 then 0 else k]? = some (outputStageOf t (b.extractLsb' i 2)) := by
  subst hk
  have : b.toNat / 2 ^ i % 2 ^ 2 < 4 := Nat.mod_lt _ (by decide)
  simp only [outputStageOf, extractLsb'_eq_div]
  split
  · rw [dif_neg (by omega)]; simp
  · rw [dif_pos (by omega)]; simp

/-- The decoder reads the configuration of R104. -/
theorem decodeConfiguration_spec (t : FieldCodes) (hi lo : Byte) :
    ConfigurationOf t hi.toNat lo.toNat (decodeConfiguration t hi lo) := by
  refine ⟨getLsbD_eq_div _ _, variantOf8_at _ _ _ _ ?_, variantOf4_at _ _ _ _ ?_, variantOf4_at _ _ _ _ ?_,
    outputStageOf_at _ _ _ _ ?_, variantOf4_at _ _ _ _ ?_, variantOf4_at _ _ _ _ ?_⟩
  all_goals simp

/-- In a table without repeats a variant's code is its place. -/
theorem codeOf_getElem {α : Type} [DecidableEq α] {n : Nat} (t : Vector α n) (h : t.toList.Nodup) (k : Nat) (hk : k < n) :
    codeOf 8 t t[k] = BitVec.ofNat 8 k := by
  unfold codeOf
  have hk' : k < t.toList.length := by simpa using hk
  rw [show t[k] = t.toList[k]'hk' by simp, h.idxOf_getElem]

theorem codeOf_variantOf4 {α : Type} [DecidableEq α] (t : Vector α 4) (h : t.toList.Nodup) (c : BitVec 2) :
    codeOf 8 t (variantOf4 t c) = c.setWidth 8 := by
  unfold variantOf4
  rw [codeOf_getElem _ h]
  apply BitVec.eq_of_toNat_eq; simp

theorem codeOf_variantOf8 {α : Type} [DecidableEq α] (t : Vector α 8) (h : t.toList.Nodup) (c : BitVec 3) :
    codeOf 8 t (variantOf8 t c) = c.setWidth 8 := by
  unfold variantOf8
  rw [codeOf_getElem _ h]
  apply BitVec.eq_of_toNat_eq; simp

/-- The output stage's aliased code comes back as 0b00 (R35). -/
theorem codeOf_outputStageOf (t : Vector OutputStage 3) (h : t.toList.Nodup) (c : BitVec 2) :
    codeOf 8 t (outputStageOf t c) = if c = 3 then 0 else c.setWidth 8 := by
  unfold outputStageOf
  split
  · rename_i hc
    rw [codeOf_getElem _ h, if_neg (by rintro rfl; exact absurd hc (by decide))]
    apply BitVec.eq_of_toNat_eq; simp
  · rename_i hc
    rw [codeOf_getElem _ h, if_pos]
    · simp
    · apply BitVec.eq_of_toNat_eq; have := c.isLt; show c.toNat = 3; omega

/-! ## Packing -/

theorem packHi_eq : ∀ (wd : Bool) (fth : BitVec 3) (sf : BitVec 2),
    (bitsWhen wd 1) <<< 5 ||| (fth.setWidth 8) <<< 2 ||| sf.setWidth 8 =
      BitVec.ofNat 8 (32 * wd.toNat + 4 * fth.toNat + sf.toNat) := by
  decide +kernel

theorem packLo_eq : ∀ a b c d : BitVec 2,
    (a.setWidth 8 : Byte) <<< 6 ||| (b.setWidth 8) <<< 4 ||| (c.setWidth 8) <<< 2 ||| d.setWidth 8 =
      BitVec.ofNat 8 (64 * a.toNat + 16 * b.toNat + 4 * c.toNat + d.toNat) := by
  decide +kernel

/-- The byte pair of seven operands in range: the codes at the places of R32. -/
theorem encodeConfiguration_operands_eq (t : FieldCodes) (ht : t.Bijective) {pm hyst outs pwmf sf fth wd : Byte}
    (hr : pm.toNat ≤ 3 ∧ hyst.toNat ≤ 3 ∧ outs.toNat ≤ 2 ∧ pwmf.toNat ≤ 3 ∧ sf.toNat ≤ 3 ∧ fth.toNat ≤ 7 ∧ wd.toNat ≤ 1) :
    encodeConfiguration t (configOperands t pm hyst outs pwmf sf fth wd) =
      [BitVec.ofNat 8 (32 * wd.toNat + 4 * fth.toNat + sf.toNat),
       BitVec.ofNat 8 (64 * pwmf.toNat + 16 * outs.toNat + 4 * hyst.toNat + pm.toNat)] := by
  obtain ⟨h1, h2, h3, h4, h5, h6⟩ := ht
  obtain ⟨r1, r2, r3, r4, r5, r6, r7⟩ := hr
  have w2 : ∀ b : Byte, b.toNat ≤ 3 → (b.setWidth 2).toNat = b.toNat := by
    intro b h; rw [BitVec.toNat_setWidth]; exact Nat.mod_eq_of_lt (by omega)
  have w3 : (fth.setWidth 3).toNat = fth.toNat := by
    rw [BitVec.toNat_setWidth]; exact Nat.mod_eq_of_lt (by omega)
  simp only [encodeConfiguration, encodeConfigHi, encodeConfigLo, configOperands, codeOf_variantOf4 _ h1,
    codeOf_variantOf4 _ h2, codeOf_outputStageOf _ h3, codeOf_variantOf4 _ h4, codeOf_variantOf4 _ h5,
    codeOf_variantOf8 _ h6]
  rw [packHi_eq, if_neg, packLo_eq, w2 _ r1, w2 _ r2, w2 outs (by omega), w2 _ r4, w2 _ r5, w3]
  · rcases boolOperand_cases r7 with rfl | rfl <;> rfl
  · intro hc
    have := congrArg BitVec.toNat hc
    rw [w2 outs (by omega)] at this
    simp at this; omega

end Sys2Proof.Machine
end

