-- ==== Sys2Proof/Laws/Memory.lean ====
section
/-! SUPPORT. The laws of the register array: a read after a write, the canonical form kept by every write, equal reads only
of equal memories, and a byte list stored and read back. -/

namespace Sys2Proof.Machine

variable {g : Byte} {m m' : List Host.Cell} {a b x : Nat} {v : Byte}

theorem Memory.mem_cell {c : Host.Cell} (h : c ∈ Memory.cell g a v) : c = (a, v) ∧ v ≠ resetByte g a := by
  unfold Memory.cell at h
  split at h <;> simp_all

theorem Memory.read_cell_append (h : ∀ c ∈ m, c.1 ≠ a) :
    Memory.read g (Memory.cell g a v ++ m) x = if x = a then v else Memory.read g m x := by
  have unlisted : ∀ l : List Host.Cell, (∀ c ∈ l, c.1 ≠ a) → Memory.read g l a = resetByte g a := by
    intro l
    induction l with
    | nil => simp [Memory.read]
    | cons c l ih => intro hl; rw [Memory.read, if_neg (hl c (by simp)), ih fun d hd => hl d (by simp [hd])]
  unfold Memory.cell
  by_cases hx : x = a
  · subst hx
    split
    · rename_i hv; simp [unlisted m h, hv]
    · simp [Memory.read]
  · split <;> simp [Memory.read, Ne.symm hx]

/-- A read after a write, in a memory in canonical form. -/
theorem Memory.read_write (h : m.Pairwise fun c d => c.1 < d.1) :
    Memory.read g (Memory.write g m a v) x = if x = a then v else Memory.read g m x := by
  induction m with
  | nil => simpa [Memory.write] using Memory.read_cell_append (g := g) (m := []) (a := a) (v := v) (x := x) (by simp)
  | cons c m ih =>
    obtain ⟨b, w⟩ := c
    rw [List.pairwise_cons] at h
    unfold Memory.write
    split
    · exact Memory.read_cell_append (by
        intro d hd
        rcases List.mem_cons.1 hd with rfl | hd
        · simp only; omega
        · have := h.1 d hd; simp only at this; omega)
    · split
      · rename_i hlt heq
        rw [Memory.read_cell_append (by intro d hd; have := h.1 d hd; simp only at this; omega)]
        by_cases hx : x = a
        · simp [hx]
        · simp [Memory.read, hx, show ¬ b = x by omega]
      · rw [Memory.read, ih h.2, Memory.read]
        by_cases hb : b = x
        · simp [hb, show ¬ x = a by omega]
        · simp [hb]

theorem Memory.mem_write {c : Host.Cell} (h : c ∈ Memory.write g m a v) : c ∈ m ∨ c ∈ Memory.cell g a v := by
  induction m with
  | nil => exact .inr h
  | cons d m ih =>
    unfold Memory.write at h
    split at h
    · rcases List.mem_append.1 h with h | h
      · exact .inr h
      · exact .inl h
    · split at h
      · rcases List.mem_append.1 h with h | h
        · exact .inr h
        · exact .inl (by simp [h])
      · rcases List.mem_cons.1 h with h | h
        · exact .inl (by simp [h])
        · rcases ih h with h | h
          · exact .inl (by simp [h])
          · exact .inr h

/-- A write of a byte of the array keeps the canonical form. -/
theorem Memory.write_wf (h : Memory.wf g m) (ha : a ≤ 255) : Memory.wf g (Memory.write g m a v) := by
  constructor
  · replace h := h.1
    induction m with
    | nil => unfold Memory.write Memory.cell; split <;> simp
    | cons c m ih =>
      obtain ⟨b, w⟩ := c
      rw [List.pairwise_cons] at h
      have one : (Memory.cell g a v).Pairwise fun c d : Host.Cell => c.1 < d.1 := by
        unfold Memory.cell; split <;> simp
      unfold Memory.write
      split
      · rw [List.pairwise_append]
        refine ⟨one, List.pairwise_cons.2 h, fun c hc d hd => ?_⟩
        have := (Memory.mem_cell hc).1
        subst this
        rcases List.mem_cons.1 hd with rfl | hd
        · assumption
        · have := h.1 d hd; simp only at this ⊢; omega
      · split
        · rw [List.pairwise_append]
          refine ⟨one, h.2, fun c hc d hd => ?_⟩
          have := (Memory.mem_cell hc).1
          have := h.1 d hd
          simp_all
        · rw [List.pairwise_cons]
          refine ⟨fun c hc => ?_, ih h.2⟩
          rcases Memory.mem_write hc with hc | hc
          · exact h.1 c hc
          · have := (Memory.mem_cell hc).1; subst this; simp only; omega
  · intro c hc
    rcases Memory.mem_write hc with hc | hc
    · exact h.2 c hc
    · obtain ⟨rfl, hv⟩ := Memory.mem_cell hc
      exact ⟨ha, hv⟩

/-- A byte list stored keeps the canonical form. -/
theorem Memory.writeList_wf (bs : List Byte) : ∀ {m : List Host.Cell} {a : Nat}, Memory.wf g m →
    Memory.wf g (Memory.writeList g m a bs) := by
  induction bs with
  | nil => intro m a h; exact h
  | cons v bs ih =>
    intro m a h
    unfold Memory.writeList
    apply ih
    split
    · exact Memory.write_wf h ‹_›
    · exact h

/-- A read after a byte list is stored: the list's byte where the list reaches, the old byte elsewhere. -/
theorem Memory.read_writeList (bs : List Byte) : ∀ {m : List Host.Cell} {a : Nat}, Memory.wf g m → x ≤ 255 →
    Memory.read g (Memory.writeList g m a bs) x =
      if a ≤ x ∧ x < a + bs.length then bs.getD (x - a) 0 else Memory.read g m x := by
  induction bs with
  | nil => intro m a _ _; rw [if_neg (by simp only [List.length_nil]; omega)]; rfl
  | cons v bs ih =>
    intro m a h hx
    have hw : Memory.wf g (if a ≤ 255 then Memory.write g m a v else m) := by
      split
      · exact Memory.write_wf h ‹_›
      · exact h
    rw [Memory.writeList, ih hw hx]
    by_cases h1 : a + 1 ≤ x ∧ x < a + 1 + bs.length
    · have h2 : a ≤ x ∧ x < a + (v :: bs).length := by simp; omega
      rw [if_pos h1, if_pos h2, show x - a = (x - (a + 1)) + 1 by omega, List.getD_cons_succ]
    · rw [if_neg h1]
      by_cases hxa : x = a
      · subst hxa; simp [hx, Memory.read_write h.1]
      · have h2 : ¬ (a ≤ x ∧ x < a + (v :: bs).length) := by simp; omega
        rw [if_neg h2]
        split
        · rw [Memory.read_write h.1, if_neg hxa]
        · rfl

theorem Memory.read_of_lt (h : ∀ c ∈ m, x < c.1) : Memory.read g m x = resetByte g x := by
  induction m with
  | nil => rfl
  | cons c m ih =>
    have := h c (by simp)
    rw [Memory.read, if_neg (by omega), ih fun d hd => h d (by simp [hd])]

/-- Two memories in canonical form that read alike are equal. -/
theorem Memory.eq_of_read_eq : ∀ {m m' : List Host.Cell}, Memory.wf g m → Memory.wf g m' →
    (∀ x, x ≤ 255 → Memory.read g m x = Memory.read g m' x) → m = m'
  | [], [], _, _, _ => rfl
  | [], (b, w) :: m', _, h', he => by
    have hb := h'.2 (b, w) (by simp)
    have := he b hb.1
    rw [Memory.read, Memory.read, if_pos rfl] at this
    exact absurd this.symm hb.2
  | (b, w) :: m, [], h, _, he => by
    have hb := h.2 (b, w) (by simp)
    have := he b hb.1
    rw [Memory.read, Memory.read, if_pos rfl] at this
    exact absurd this hb.2
  | (b, w) :: m, (b', w') :: m', h, h', he => by
    have hs := List.pairwise_cons.1 h.1
    have hs' := List.pairwise_cons.1 h'.1
    have hb := h.2 (b, w) (by simp)
    have hb' := h'.2 (b', w') (by simp)
    simp only at hs hs' hb hb'
    have hbb : b = b' := by
      rcases Nat.lt_trichotomy b b' with hlt | heq | hlt
      · have := he b hb.1
        rw [Memory.read_of_lt (g := g) (m := (b', w') :: m')] at this
        · simp [Memory.read, hb.2] at this
        · intro c hc
          rcases List.mem_cons.1 hc with rfl | hc
          · exact hlt
          · have := hs'.1 c hc; omega
      · exact heq
      · have := he b' hb'.1
        rw [Memory.read_of_lt (g := g) (m := (b, w) :: m)] at this
        · simp [Memory.read, Ne.symm hb'.2] at this
        · intro c hc
          rcases List.mem_cons.1 hc with rfl | hc
          · exact hlt
          · have := hs.1 c hc; omega
    subst hbb
    have hww : w = w' := by have := he b hb.1; simpa [Memory.read] using this
    subst hww
    rw [Memory.eq_of_read_eq (m := m) (m' := m') ⟨hs.2, fun c hc => h.2 c (by simp [hc])⟩
      ⟨hs'.2, fun c hc => h'.2 c (by simp [hc])⟩]
    intro x hx
    by_cases hxb : x = b
    · subst hxb
      rw [Memory.read_of_lt hs.1, Memory.read_of_lt hs'.1]
    · have := he x hx
      simpa [Memory.read, Ne.symm hxb] using this

/-! ## Bytes of a state -/

theorem State.byteAt_congr {s t : State} (hp : t.params = s.params) (hm : t.mem = s.mem) (x : Nat) :
    t.byteAt x = s.byteAt x := by
  unfold State.byteAt; rw [hp, hm]

@[simp] theorem State.byteAt_dropDraw (s : State) (x : Nat) : s.dropDraw.byteAt x = s.byteAt x := rfl
@[simp] theorem State.byteAt_setAgent (s : State) (k : Nat) (ag : Agent) (x : Nat) :
    (s.setAgent k ag).byteAt x = s.byteAt x := rfl
@[simp] theorem State.byteAt_grant (s : State) (k x : Nat) : (s.grant k).byteAt x = s.byteAt x := rfl
@[simp] theorem State.byteAt_afterResult (s : State) (ag : Agent) (r : Result) (x : Nat) :
    (s.afterResult ag r).byteAt x = s.byteAt x := rfl
@[simp] theorem State.byteAt_afterStop (s : State) (ag : Agent) (w : Stop) (x : Nat) :
    (s.afterStop ag w).byteAt x = s.byteAt x := by cases w <;> rfl

@[simp] theorem State.length_readBytes (s : State) (a n : Nat) : (s.readBytes a n).length = n := by
  simp [State.readBytes]

theorem State.getElem?_readBytes (s : State) (a n i : Nat) (h : i < n) :
    (s.readBytes a n)[i]? = some (s.byteAt (a + i)) := by
  simp [State.readBytes, h]

/-- A byte list stored is there, and the rest of the array is as it was (R140). -/
theorem State.stored_writeBytes (s : State) (h : Memory.wf s.params.defaultGain s.mem) (a : Nat) (bs : List Byte) :
    s.Stored (s.writeBytes a bs) a bs := by
  refine ⟨rfl, fun x => ?_⟩
  unfold State.byteAt
  by_cases hx : x ≤ 255
  · simp [hx, Memory.read_writeList bs h hx]
  · simp [hx]

end Sys2Proof.Machine
end

