-- ==== Sys2Proof/Laws/Ops.lean ====
section
/-! SUPPORT. What each shared operation does, said once: completing a command, halting an agent, the checks, the transport
draw, and from these what every command does (`exec_spec`). Later proofs cite these and do not unfold the operations. -/

namespace Sys2Proof.Machine

variable {s : State} {ag : Agent}

/-- A command completes: its result is logged and its `pc` advances. -/
theorem complete_eq (h : s.agents[s.turn]? = some ag) (r : Result) : complete r s = .next (s.afterResult ag r) := by
  unfold complete; rw [State.invoker_eq, h]; rfl

/-- An agent halts. -/
theorem halt_eq (h : s.agents[s.turn]? = some ag) (w : Stop) : halt w s = .next (s.afterStop ag w) := by
  unfold halt; rw [State.invoker_eq, h]
  cases w <;> simp [State.raise, State.setAgent, State.afterStop, Stop.isFault]

/-- A refusal halts the invoking agent with its reason. -/
theorem refuse_eq (h : s.agents[s.turn]? = some ag) (w : RefuseReason) :
    refuse w s = .next (s.afterStop ag (.refused w)) := halt_eq h _

/-- Unimplemented halts the invoking agent with the device operand. -/
theorem raiseUnimplemented_eq (h : s.agents[s.turn]? = some ag) (dev : Byte) :
    raiseUnimplemented dev s = .next (s.afterStop ag (.unimplemented dev)) := halt_eq h _

/-- Without an invoking agent nothing completes. -/
theorem complete_none (h : s.agents[s.turn]? = none) (r : Result) : complete r s = .fault .noSuchAgent := by
  unfold complete; rw [State.invoker_eq, h]

theorem halt_none (h : s.agents[s.turn]? = none) (w : Stop) : halt w s = .fault .noSuchAgent := by
  unfold halt; rw [State.invoker_eq, h]

theorem whenWellFormed_pos {i : Instr} (h : i.WellFormed) (run : State → StepOutcome) :
    whenWellFormed i s run = run s := if_pos h

theorem whenWellFormed_neg {i : Instr} (h : ¬ i.WellFormed) (run : State → StepOutcome) :
    whenWellFormed i s run = refuse (.illFormed i.failedChecks) s := if_neg h

/-- The next transport draw fails exactly when the list of draws begins with true. -/
theorem State.transportFails_iff : s.transportFails = true ↔ s.transportDraws.head? = some true := by
  unfold State.transportFails
  cases s.transportDraws <;> simp

theorem withTransport_ok (h : s.transportFails = false) (run : State → StepOutcome) :
    withTransport s run = run s.dropDraw := by simp [withTransport, h]

theorem withTransport_fail (hf : s.transportFails = true) (h : s.agents[s.turn]? = some ag)
    (run : State → StepOutcome) :
    withTransport s run = .next (s.dropDraw.afterResult ag (.err .transportFailure)) := by
  simp only [withTransport, hf, if_true]
  exact complete_eq (s := s.dropDraw) h _

/-- `s` with a command's bytes stored, where it stores any. -/
def State.applyStore (s : State) : Option (Nat × List Byte) → State
  | none => s
  | some (a, bytes) => s.writeBytes a bytes

@[simp] theorem State.applyStore_none (s : State) : s.applyStore none = s := rfl
@[simp] theorem State.applyStore_some (s : State) (a : Nat) (bs : List Byte) :
    s.applyStore (some (a, bs)) = s.writeBytes a bs := rfl
@[simp] theorem State.applyStore_params (s : State) (st : Option (Nat × List Byte)) :
    (s.applyStore st).params = s.params := by rcases st with _ | ⟨a, bs⟩ <;> rfl
@[simp] theorem State.applyStore_agents (s : State) (st : Option (Nat × List Byte)) :
    (s.applyStore st).agents = s.agents := by rcases st with _ | ⟨a, bs⟩ <;> rfl
@[simp] theorem State.applyStore_turn (s : State) (st : Option (Nat × List Byte)) :
    (s.applyStore st).turn = s.turn := by rcases st with _ | ⟨a, bs⟩ <;> rfl
@[simp] theorem State.applyStore_fault (s : State) (st : Option (Nat × List Byte)) :
    (s.applyStore st).fault = s.fault := by rcases st with _ | ⟨a, bs⟩ <;> rfl
@[simp] theorem State.applyStore_refused (s : State) (st : Option (Nat × List Byte)) :
    (s.applyStore st).refused = s.refused := by rcases st with _ | ⟨a, bs⟩ <;> rfl
@[simp] theorem State.applyStore_schedule (s : State) (st : Option (Nat × List Byte)) :
    (s.applyStore st).schedule = s.schedule := by rcases st with _ | ⟨a, bs⟩ <;> rfl
@[simp] theorem State.applyStore_freePicks (s : State) (st : Option (Nat × List Byte)) :
    (s.applyStore st).freePicks = s.freePicks := by rcases st with _ | ⟨a, bs⟩ <;> rfl
@[simp] theorem State.applyStore_transportDraws (s : State) (st : Option (Nat × List Byte)) :
    (s.applyStore st).transportDraws = s.transportDraws := by rcases st with _ | ⟨a, bs⟩ <;> rfl

/-- Memory after a command's store keeps the canonical form. -/
theorem State.applyStore_wf (h : Memory.wf s.params.defaultGain s.mem) (st : Option (Nat × List Byte)) :
    Memory.wf s.params.defaultGain (s.applyStore st).mem := by
  rcases st with _ | ⟨a, bs⟩
  · exact h
  · exact Memory.writeList_wf bs h

/-- The bytes of the array after a command's store. -/
theorem State.byteAt_applyStore (h : Memory.wf s.params.defaultGain s.mem) (st : Option (Nat × List Byte)) (x : Nat) :
    (s.applyStore st).byteAt x = (storedByte st x).getD (s.byteAt x) := by
  rcases st with _ | ⟨a, bs⟩
  · rfl
  · rw [State.applyStore_some, (State.stored_writeBytes s h a bs).2 x]
    simp only [storedByte]
    by_cases hx : a ≤ x ∧ x ≤ 255
    · by_cases hl : x < a + bs.length
      · rw [if_pos ⟨hx.1, hl, hx.2⟩, if_pos hx, List.getD_eq_getElem?_getD,
          List.getElem?_eq_getElem (show x - a < bs.length by omega)]
        rfl
      · rw [if_neg fun h => hl h.2.1, if_pos hx, List.getElem?_eq_none (by omega)]
        rfl
    · rw [if_neg fun h => hx ⟨h.1, h.2.2⟩, if_neg hx]
      rfl

/-- The state a command that completes with Ok leaves, but for its agent: its transport draw taken where it makes a bus call,
its bytes stored where it stores any. -/
def okState (i : Instr) (s : State) : State :=
  (if Opcode.makesBusCall i.opcode then s.dropDraw else s).applyStore (storeOf s.params.fieldCodes i)

/-- A bus write: the transport error, or the bytes after the first stored from the address the first names. -/
theorem busWrite_eq (h : s.agents[s.turn]? = some ag) (dev reg : Byte) (data : List Byte) :
    busWrite dev (reg :: data) s =
      if s.transportFails then .next (s.dropDraw.afterResult ag (.err .transportFailure))
      else .next ((s.dropDraw.writeBytes reg.toNat data).afterResult ag (.ok .unit)) := by
  unfold busWrite
  cases hf : s.transportFails
  · rw [withTransport_ok hf]
    exact complete_eq (s := s.dropDraw.writeBytes reg.toNat data) h _
  · exact withTransport_fail hf h _

theorem busWrite_nil_eq (h : s.agents[s.turn]? = some ag) (dev : Byte) :
    busWrite dev [] s =
      if s.transportFails then .next (s.dropDraw.afterResult ag (.err .transportFailure))
      else .next (s.dropDraw.afterResult ag (.ok .unit)) := by
  unfold busWrite
  cases hf : s.transportFails
  · rw [withTransport_ok hf]
    exact complete_eq (s := s.dropDraw) h _
  · exact withTransport_fail hf h _

/-- A bus read: the transport error, or what the decoder makes of the bytes read. -/
theorem busRead_eq (h : s.agents[s.turn]? = some ag) (dev : Byte) (reg count : Nat) (dec : List Byte → Value) :
    busRead dev reg count dec s =
      if s.transportFails then .next (s.dropDraw.afterResult ag (.err .transportFailure))
      else .next (s.dropDraw.afterResult ag (.ok (dec (s.readBytes reg count)))) := by
  unfold busRead
  cases hf : s.transportFails
  · rw [withTransport_ok hf]
    exact complete_eq (s := s.dropDraw) h _
  · exact withTransport_fail hf h _

/-- A control update: the bytes stored, whatever the transport. -/
theorem controlUpdate_eq (h : s.agents[s.turn]? = some ag) (r : Register) (bytes : List Byte) :
    controlUpdate r bytes s = .next ((s.writeBytes r.base bytes).afterResult ag (.ok .unit)) :=
  complete_eq (s := s.writeBytes r.base bytes) h _

theorem getter_eq (h : s.agents[s.turn]? = some ag) (r : Register) (dec : List Byte → Value) :
    getter r dec s =
      if s.transportFails then .next (s.dropDraw.afterResult ag (.err .transportFailure))
      else .next (s.dropDraw.afterResult ag (.ok (dec (s.readBytes r.base r.width)))) := busRead_eq h _ _ _ _

theorem setter_eq (h : s.agents[s.turn]? = some ag) (r : Register) (bytes : List Byte) :
    setter r bytes s =
      if s.transportFails then .next (s.dropDraw.afterResult ag (.err .transportFailure))
      else .next ((s.dropDraw.writeBytes r.base bytes).afterResult ag (.ok .unit)) := by
  unfold setter
  rw [busWrite_eq h, show (BitVec.ofNat 8 r.base).toNat = r.base by cases r <;> rfl]

/-- The outcome of a well-formed command (R246). -/
theorem outcomeOf_wf {i : Instr} (hw : i.WellFormed) (f : Bool) :
    outcomeOf (.cmd i) f =
      if i.opcode = .busTransaction then .unimplemented
      else if Opcode.makesBusCall i.opcode && f then .transportFailure
      else .ok := by
  simp only [outcomeOf]
  rw [if_neg (not_not.2 hw)]

/-- The outcome of an ill-formed command (R246). -/
theorem outcomeOf_not_wf {i : Instr} (hw : ¬ i.WellFormed) (f : Bool) : outcomeOf (.cmd i) f = .refused := by
  simp only [outcomeOf]
  rw [if_pos hw]

/-- Every meaning that has a check begins with it. -/
theorem exec_not_wf {i : Instr} (hw : ¬ i.WellFormed) (h : s.agents[s.turn]? = some ag) :
    exec i s = .next (s.afterStop ag (.refused (.illFormed i.failedChecks))) := by
  cases i with
  | rfWrite start data => simp only [exec, execRfWrite]; rw [whenWellFormed_neg hw]; exact refuse_eq h _
  | _ => first
    | exact absurd rfl hw
    | exact (whenWellFormed_neg hw _).trans (refuse_eq h _)

/-- A well-formed command that makes no bus call and is not BUS_TRANSACTION completes with Ok, its bytes stored. -/
theorem exec_local {i : Instr} (hw : i.WellFormed) (hb : Opcode.makesBusCall i.opcode = false)
    (ht : i.opcode ≠ .busTransaction) (h : s.agents[s.turn]? = some ag) :
    ∃ v, exec i s = .next ((s.applyStore (storeOf s.params.fieldCodes i)).afterResult ag (.ok v)) := by
  cases i with
  | rfWrite start data =>
    exact ⟨.unit, by
      simp only [exec, execRfWrite]; rw [whenWellFormed_pos hw]; exact complete_eq (s := s.writeBytes start.toNat data) h _⟩
  | _ => first
    | exact absurd (show true = false from hb) (by decide)
    | exact absurd rfl ht
    | exact ⟨_, complete_eq h _⟩
    | exact ⟨_, (whenWellFormed_pos hw _).trans (complete_eq h _)⟩
    | exact ⟨_, controlUpdate_eq h _ _⟩
    | exact ⟨_, (whenWellFormed_pos hw _).trans (controlUpdate_eq h _ _)⟩

/-- A well-formed command that makes a bus call: the transport error, or Ok with its bytes stored. -/
theorem exec_bus {i : Instr} (hw : i.WellFormed) (hb : Opcode.makesBusCall i.opcode = true)
    (h : s.agents[s.turn]? = some ag) :
    ∃ v, exec i s =
      if s.transportFails then .next (s.dropDraw.afterResult ag (.err .transportFailure))
      else .next ((s.dropDraw.applyStore (storeOf s.params.fieldCodes i)).afterResult ag (.ok v)) := by
  cases i with
  | busWrite dev data =>
    cases data with
    | nil => exact ⟨_, (whenWellFormed_pos hw _).trans (busWrite_nil_eq h _)⟩
    | cons r data => exact ⟨_, (whenWellFormed_pos hw _).trans (busWrite_eq h _ _ _)⟩
  | busWriteThenRead dev data m => exact ⟨_, (whenWellFormed_pos hw _).trans (busRead_eq h _ _ _ _)⟩
  | setConfig => exact ⟨_, (whenWellFormed_pos hw _).trans (setter_eq h _ _)⟩
  | _ => first
    | exact absurd (show false = true from hb) (by decide)
    | exact ⟨_, getter_eq h _ _⟩
    | exact ⟨_, setter_eq h _ _⟩

/-- What every command does, by the outcome R246 gives it. -/
theorem exec_spec (i : Instr) (h : s.agents[s.turn]? = some ag) :
    match outcomeOf (.cmd i) s.transportFails with
    | .refused => exec i s = .next (s.afterStop ag (.refused (.illFormed i.failedChecks)))
    | .unimplemented => ∃ dev data, i = .busTransaction dev data ∧ exec i s = .next (s.afterStop ag (.unimplemented dev))
    | .transportFailure => exec i s = .next (s.dropDraw.afterResult ag (.err .transportFailure))
    | .ok => ∃ v, exec i s = .next ((okState i s).afterResult ag (.ok v)) := by
  by_cases hw : i.WellFormed
  · rw [outcomeOf_wf hw]
    by_cases ht : i.opcode = .busTransaction
    · rw [if_pos ht]
      cases i <;> first
        | exact ⟨_, _, rfl, (whenWellFormed_pos hw _).trans (raiseUnimplemented_eq h _)⟩
        | exact absurd (show _ = _ from ht) (by simp [Instr.opcode])
    · rw [if_neg ht]
      unfold okState
      cases hb : Opcode.makesBusCall i.opcode
      · obtain ⟨v, hv⟩ := exec_local hw hb ht h
        exact ⟨v, hv⟩
      · obtain ⟨v, hv⟩ := exec_bus hw hb h
        cases hf : s.transportFails <;> rw [hf] at hv
        · exact ⟨v, hv⟩
        · exact hv
  · rw [outcomeOf_not_wf hw]
    exact exec_not_wf hw h

/-- With no invoking agent every command is a fault of the interface. -/
theorem exec_no_agent (i : Instr) (h : s.agents[s.turn]? = none) : exec i s = .fault .noSuchAgent := by
  have hc : ∀ (r : Result) (u : State), u.agents = s.agents → u.turn = s.turn → complete r u = .fault .noSuchAgent :=
    fun r u h1 h2 => complete_none (by rw [h1, h2]; exact h) r
  have hb : ∀ dev bytes, busWrite dev bytes s = .fault .noSuchAgent := by
    intro dev bytes
    unfold busWrite withTransport
    split
    · exact hc _ _ rfl rfl
    · cases bytes <;> exact hc _ _ rfl rfl
  have hr : ∀ dev reg n dec, busRead dev reg n dec s = .fault .noSuchAgent := by
    intro dev reg n dec
    unfold busRead withTransport
    split <;> exact hc _ _ rfl rfl
  have hk : ∀ (j : Instr) (run : State → StepOutcome), run s = .fault .noSuchAgent →
      whenWellFormed j s run = .fault .noSuchAgent := by
    intro j run hrun
    unfold whenWellFormed
    split
    · exact hrun
    · exact halt_none h _
  have hu : ∀ r bytes, controlUpdate r bytes s = .fault .noSuchAgent :=
    fun r bytes => hc _ (s.writeBytes r.base bytes) rfl rfl
  have hg : ∀ r dec, getter r dec s = .fault .noSuchAgent := fun r dec => hr _ _ _ _
  have hs : ∀ r bytes, setter r bytes s = .fault .noSuchAgent := fun r bytes => hb _ _
  cases i with
  | rfWrite start data =>
    simp only [exec, execRfWrite]
    exact hk _ _ (hc _ (s.writeBytes start.toNat data) rfl rfl)
  | _ => first
    | exact hc _ s rfl rfl
    | exact hu _ _
    | exact hg _ _
    | exact hs _ _
    | exact hk _ _ (hc _ s rfl rfl)
    | exact hk _ _ (hu _ _)
    | exact hk _ _ (hs _ _)
    | exact hk _ _ (hb _ _)
    | exact hk _ _ (hr _ _ _ _)
    | exact hk _ _ (halt_none h _)

end Sys2Proof.Machine
end

