-- ==== Sys2Proof/Laws/PerInstr.lean ====
section
/-! SUPPORT. Family EncodedLength: for each command, the length a decoder finds from the front of a stream (30_encoding R78) is
the length of the command's encoding (R72). -/

namespace Sys2Proof.Laws.EncodedLength

/-- The length found at the front of a stream that begins with the command's encoding. -/
def Statement (i : Instr) : Prop :=
  i.WellFormed → ∀ rest : List Byte, commandLength (encode i ++ rest) = some (encode i).length

/-- The data list of a well-formed command fits its length field. -/
theorem block_length {f : Format} {k : Nat} {data : List Byte} (h : data.length ≤ Config.maxLen)
    (hk : f.length data.length = k + data.length) :
    f.length (be16 (hi8 (BitVec.ofNat 16 data.length)) (lo8 (BitVec.ofNat 16 data.length))).toNat = k + data.length := by
  rw [be16_hi8_lo8, length_n16 h, hk]

theorem decodeU12 (hi : Byte) (lo : Byte) : Statement (.decodeU12 hi lo) := fun _ _ => rfl

theorem encodeU12 (v : U16) : Statement (.encodeU12 v) := fun _ _ => rfl

theorem decodeStatus (b : Byte) : Statement (.decodeStatus b) := fun _ _ => rfl

theorem encodeStatus (d : Byte) (w : Byte) (st : Byte) : Statement (.encodeStatus d w st) := fun _ _ => rfl

theorem decodeConfig (hi : Byte) (lo : Byte) : Statement (.decodeConfig hi lo) := fun _ _ => rfl

theorem encodeConfig (pm : Byte) (hyst : Byte) (outs : Byte) (pwmf : Byte) (sf : Byte) (fth : Byte) (wd : Byte) : Statement (.encodeConfig pm hyst outs pwmf sf fth wd) := fun _ _ => rfl

theorem decodeBurnCount (b : Byte) : Statement (.decodeBurnCount b) := fun _ _ => rfl

theorem rfWrite (start : Byte) (data : List Byte) : Statement (.rfWrite start data) := by
  intro h rest
  have hl := lenChecks_eq_nil.1 h
  refine Eq.trans (congrArg some (block_length (f := .FRW) (k := 4) hl rfl)) ?_
  simp [encode, operandBytes, n16, bytes16]; omega

theorem rfRead (start : Byte) (count : U16) : Statement (.rfRead start count) := fun _ _ => rfl

theorem busWrite (dev : Byte) (data : List Byte) : Statement (.busWrite dev data) := by
  intro h rest
  have hl := lenChecks_eq_nil.1 (List.append_eq_nil_iff.1 h).2
  refine Eq.trans (congrArg some (block_length (f := .FBW) (k := 4) hl rfl)) ?_
  simp [encode, operandBytes, n16, bytes16]; omega

theorem busWriteThenRead (dev : Byte) (data : List Byte) (m : U16) : Statement (.busWriteThenRead dev data m) := by
  intro h rest
  have hl := lenChecks_eq_nil.1 (List.append_eq_nil_iff.1 h).2
  have hb : commandLength (encode (.busWriteThenRead dev data m) ++ rest) =
      some (Format.FBWR.length (be16 (hi8 (BitVec.ofNat 16 data.length)) (lo8 (BitVec.ofNat 16 data.length))).toNat) := by
    simp [encode, operandBytes, n16, bytes16, commandLength, Instr.opcode, show rowOfByte Opcode.busWriteThenRead.byte =
      some ⟨0x31, .busWriteThenRead, .FBWR⟩ from rfl, Format.hasLengthField]
  rw [hb, block_length (f := .FBWR) (k := 6) hl rfl]
  simp [encode, operandBytes, n16, bytes16]; omega

theorem busTransaction (dev : Byte) (data : List Byte) : Statement (.busTransaction dev data) := by
  intro h rest
  have hl := lenChecks_eq_nil.1 (List.append_eq_nil_iff.1 h).2
  refine Eq.trans (congrArg some (block_length (f := .FBT) (k := 4) hl rfl)) ?_
  simp [encode, operandBytes, n16, bytes16]; omega

theorem setRawAngle (v : U16) : Statement (.setRawAngle v) := fun _ _ => rfl

theorem setStatus (d : Byte) (w : Byte) (st : Byte) : Statement (.setStatus d w st) := fun _ _ => rfl

theorem setGain (g : Byte) : Statement (.setGain g) := fun _ _ => rfl

theorem setMagnitude (v : U16) : Statement (.setMagnitude v) := fun _ _ => rfl

theorem getBurnCount : Statement .getBurnCount := fun _ _ => rfl

theorem getZeroPosition : Statement .getZeroPosition := fun _ _ => rfl

theorem setZeroPosition (v : U16) : Statement (.setZeroPosition v) := fun _ _ => rfl

theorem getMaxPosition : Statement .getMaxPosition := fun _ _ => rfl

theorem setMaxPosition (v : U16) : Statement (.setMaxPosition v) := fun _ _ => rfl

theorem getMaxAngle : Statement .getMaxAngle := fun _ _ => rfl

theorem setMaxAngle (v : U16) : Statement (.setMaxAngle v) := fun _ _ => rfl

theorem getConfig : Statement .getConfig := fun _ _ => rfl

theorem setConfig (pm : Byte) (hyst : Byte) (outs : Byte) (pwmf : Byte) (sf : Byte) (fth : Byte) (wd : Byte) : Statement (.setConfig pm hyst outs pwmf sf fth wd) := fun _ _ => rfl

theorem getStatus : Statement .getStatus := fun _ _ => rfl

theorem getRawAngle : Statement .getRawAngle := fun _ _ => rfl

theorem getAngle : Statement .getAngle := fun _ _ => rfl

theorem getGain : Statement .getGain := fun _ _ => rfl

theorem getMagnitude : Statement .getMagnitude := fun _ _ => rfl

theorem commitAngle : Statement .commitAngle := fun _ _ => rfl

theorem commitSettings : Statement .commitSettings := fun _ _ => rfl

end Sys2Proof.Laws.EncodedLength
end

