-- ==== Sys2Proof/Laws/Step.lean ====
section
/-! SUPPORT. One step, said once: which agent moves and what it runs (`step_cases`), and what the step changes
(`step_spec`). -/

namespace Sys2Proof.Machine

variable {s t : State} {ag : Agent} {k n : Nat} {c : Fetched}

theorem Agent.allowed_iff : ag.allowed = true ↔ ag.halted = false ∧ ag.pc < ag.commands.length := by
  simp [Agent.allowed]

theorem State.allowed_iff : s.allowed k = true ↔ ∃ ag, s.agents[k]? = some ag ∧ ag.allowed = true := by
  unfold State.allowed
  cases s.agents[k]? <;> simp

/-- The agent that moves is allowed (R240). -/
theorem State.chosen_allowed (h : s.chosen = some k) : ∃ ag, s.agents[k]? = some ag ∧ ag.allowed = true := by
  unfold State.chosen at h
  split at h
  · injection h with h; subst h; exact State.allowed_iff.1 ‹_›
  · obtain ⟨hk, ha, _⟩ := List.findIdx?_eq_some_iff_getElem.1 h
    exact ⟨_, List.getElem?_eq_getElem hk, ha⟩

/-- No agent moves exactly when none is allowed: the run has ended (R255). -/
theorem State.chosen_none : s.chosen = none ↔ s.Ended := by
  unfold State.chosen State.Ended
  constructor
  · intro h
    split at h
    · contradiction
    · simpa [List.findIdx?_eq_none_iff] using h
  · intro h
    rw [if_neg, List.findIdx?_eq_none_iff]
    · simpa using h
    · intro hp
      obtain ⟨ag, hag, ha⟩ := State.allowed_iff.1 hp
      rw [h ag (List.mem_of_getElem? hag)] at ha
      contradiction

/-- An allowed agent named by the schedule is the one that moves (R58). -/
theorem State.chosen_of_schedule {sch : List Nat} (h : s.schedule = k :: sch) (ha : s.allowed k = true) :
    s.chosen = some k := by
  have hp : s.pick = k := by simp [State.pick, h]
  simp [State.chosen, hp, ha]

theorem State.grant_invoker : (s.grant k).invoker = s.agents[k]? := rfl

/-- A step is a step of an allowed agent, which runs the item at its `pc`. -/
theorem step_of_chosen (h : s.chosen = some k) (hag : s.agents[k]? = some ag)
    (hc : ag.commands[ag.pc]? = some c) : step s = runFetched c (s.grant k) := by
  unfold step
  rw [h]
  simp only [State.fetch, State.grant_invoker, hag, hc]

/-- Where an agent is allowed there is an item to run. -/
theorem Agent.item_of_allowed (h : ag.allowed = true) : ∃ c, ag.commands[ag.pc]? = some c :=
  ⟨_, List.getElem?_eq_getElem (Agent.allowed_iff.1 h).2⟩

/-- The two cases of a step: the run has ended, or an allowed agent runs its item. -/
theorem step_cases (s : State) :
    (s.Ended ∧ step s = .refused .noAllowedStep) ∨
    ∃ k ag c, s.chosen = some k ∧ s.agents[k]? = some ag ∧ ag.allowed = true ∧ ag.commands[ag.pc]? = some c ∧
      step s = runFetched c (s.grant k) := by
  cases h : s.chosen with
  | none => exact .inl ⟨State.chosen_none.1 h, by unfold step; rw [h]⟩
  | some k =>
    obtain ⟨ag, hag, ha⟩ := State.chosen_allowed h
    obtain ⟨c, hc⟩ := Agent.item_of_allowed ha
    exact .inr ⟨k, ag, c, rfl, hag, ha, hc, step_of_chosen h hag hc⟩

/-- What running an item does, by the outcome R246 gives it. -/
theorem runFetched_spec (c : Fetched) (h : s.agents[s.turn]? = some ag) :
    match outcomeOf c s.transportFails with
    | .refused => ∃ why, runFetched c s = .next (s.afterStop ag (.refused why))
    | .unimplemented => ∃ dev data, c = .cmd (.busTransaction dev data) ∧
        runFetched c s = .next (s.afterStop ag (.unimplemented dev))
    | .transportFailure => runFetched c s = .next (s.dropDraw.afterResult ag (.err .transportFailure))
    | .ok => ∃ i v, c = .cmd i ∧ runFetched c s = .next ((okState i s).afterResult ag (.ok v)) := by
  cases c with
  | invalid op => exact ⟨_, refuse_eq h _⟩
  | truncated => exact ⟨_, refuse_eq h _⟩
  | cmd i =>
    have := exec_spec i h
    simp only [runFetched]
    split <;> rename_i ho <;> rw [ho] at this
    · exact ⟨_, this⟩
    · obtain ⟨dev, data, rfl, hx⟩ := this; exact ⟨dev, data, rfl, hx⟩
    · exact this
    · obtain ⟨v, hv⟩ := this; exact ⟨i, v, rfl, hv⟩

/-- What a step that answers a next state did: agent `k`, allowed, ran its item `c`; either it logged one result, its bytes
stored, or it stopped. -/
theorem step_spec (h : step s = .next t) :
    ∃ k ag c, s.chosen = some k ∧ s.agents[k]? = some ag ∧ ag.allowed = true ∧ ag.commands[ag.pc]? = some c ∧
      ((∃ r, t = (((if Opcode.makesBusCall (match c with | .cmd i => i.opcode | .invalid _ => .rfRead | .truncated => .rfRead)
            then (s.grant k).dropDraw else s.grant k).applyStore
            (storeOfItem s.params.fieldCodes s.transportFails c)).afterResult ag r)) ∨
       (∃ why, t = (s.grant k).afterStop ag why ∧ storeOfItem s.params.fieldCodes s.transportFails c = none)) := by
  rcases step_cases s with ⟨_, hs⟩ | ⟨k, ag, c, hk, hag, ha, hc, hs⟩
  · rw [hs] at h; contradiction
  · refine ⟨k, ag, c, hk, hag, ha, hc, ?_⟩
    rw [hs] at h
    have hg : (s.grant k).agents[(s.grant k).turn]? = some ag := hag
    have sp := runFetched_spec c hg
    rw [show (s.grant k).transportFails = s.transportFails from rfl] at sp
    split at sp
    · rename_i ho
      obtain ⟨why, hw⟩ := sp
      rw [hw] at h; injection h with h
      refine .inr ⟨_, h.symm, ?_⟩
      cases c <;> simp [storeOfItem, ho]
    · rename_i ho
      obtain ⟨dev, data, rfl, hw⟩ := sp
      rw [hw] at h; injection h with h
      exact .inr ⟨_, h.symm, by simp [storeOfItem, ho]⟩
    · rename_i ho
      rw [sp] at h; injection h with h
      refine .inl ⟨.err .transportFailure, ?_⟩
      cases c with
      | cmd i =>
        have hb : Opcode.makesBusCall i.opcode = true := by
          by_cases hw : i.WellFormed
          · rw [outcomeOf_wf hw] at ho
            split at ho
            · contradiction
            · split at ho
              · simp_all
              · contradiction
          · rw [outcomeOf_not_wf hw] at ho; contradiction
        simp [storeOfItem, ho, hb, h.symm]
      | invalid op => simp [outcomeOf] at ho
      | truncated => simp [outcomeOf] at ho
    · rename_i ho
      obtain ⟨i, v, rfl, hw⟩ := sp
      rw [hw] at h; injection h with h
      refine .inl ⟨.ok v, ?_⟩
      rw [← h]
      simp [storeOfItem, ho, okState]

/-- What a step that answers a next state changed, field by field: agent `k`, allowed, ran its item `c`; its bytes were stored
where it stores any; the agent either logged one result or halted. -/
theorem step_changes (h : step s = .next t) :
    ∃ k ag ag' c, s.chosen = some k ∧ s.agents[k]? = some ag ∧ ag.allowed = true ∧ ag.commands[ag.pc]? = some c ∧
      t.params = s.params ∧ t.turn = k ∧ t.agents = s.agents.set k ag' ∧
      t.mem = ((s.grant k).applyStore (storeOfItem s.params.fieldCodes s.transportFails c)).mem ∧
      ((∃ r, ag' = { ag with pc := ag.pc + 1, res := ag.res ++ [r] } ∧ t.fault = s.fault ∧ t.refused = s.refused) ∨
       (∃ w, ag' = { ag with halted := true, stop := some w } ∧ t.fault = (s.fault || w.isFault) ∧
          t.refused = (s.refused || !w.isFault))) := by
  obtain ⟨k, ag, c, hk, hag, ha, hc, ⟨r, ht⟩ | ⟨w, ht, hs⟩⟩ := step_spec h
  · refine ⟨k, ag, { ag with pc := ag.pc + 1, res := ag.res ++ [r] }, c, hk, hag, ha, hc, ?_⟩
    rw [ht]
    generalize Opcode.makesBusCall _ = b
    cases b
    · exact ⟨by simp, by simp, by simp, rfl, .inl ⟨r, rfl, by simp, by simp⟩⟩
    · refine ⟨by simp, by simp, by simp, ?_, .inl ⟨r, rfl, by simp, by simp⟩⟩
      rcases storeOfItem s.params.fieldCodes s.transportFails c with _ | ⟨a, b⟩ <;> rfl
  · refine ⟨k, ag, { ag with halted := true, stop := some w }, c, hk, hag, ha, hc, ?_⟩
    rw [ht]
    exact ⟨by simp, by simp, by simp, by rw [hs]; simp, .inr ⟨w, rfl, by simp, by simp⟩⟩

/-- The array after a step: canonical again, and each byte the one stored, or as before. -/
theorem step_mem (hm : Memory.wf s.params.defaultGain s.mem) (hp : t.params = s.params)
    (hmem : t.mem = ((s.grant k).applyStore (storeOfItem s.params.fieldCodes s.transportFails c)).mem) :
    Memory.wf t.params.defaultGain t.mem ∧
      ∀ x, t.byteAt x = (storedByte (storeOfItem s.params.fieldCodes s.transportFails c) x).getD (s.byteAt x) := by
  constructor
  · rw [hp, hmem]; exact State.applyStore_wf (s := s.grant k) hm _
  · intro x
    have := State.byteAt_applyStore (s := s.grant k) hm (storeOfItem s.params.fieldCodes s.transportFails c) x
    rw [State.byteAt_grant] at this
    rw [← this]
    exact State.byteAt_congr (by simp [hp]) hmem x

/-- A step of a command of the agent the schedule names is the command's meaning. -/
theorem step_of_cmd {sch : List Nat} {i : Instr} (hs : s.schedule = k :: sch) (hag : s.agents[k]? = some ag)
    (hh : ag.halted = false) (hc : ag.commands[ag.pc]? = some (.cmd i)) :
    step s = exec i { s with turn := k, schedule := sch } := by
  have ha : s.allowed k = true :=
    State.allowed_iff.2 ⟨ag, hag, Agent.allowed_iff.2 ⟨hh, (List.getElem?_eq_some_iff.1 hc).1⟩⟩
  rw [step_of_chosen (State.chosen_of_schedule hs ha) hag hc]
  simp [runFetched, State.grant, hs]

/-! ## Runs -/

theorem State.reaches_zero (h : State.Reaches 0 s t) : t = s := by
  unfold State.Reaches at h
  simp only [Host.Core.run] at h
  injection h with h
  exact h.symm

theorem State.reaches_succ (h : State.Reaches (n + 1) s t) : ∃ u, step s = .next u ∧ State.Reaches n u t := by
  unfold State.Reaches at h
  simp only [Host.Core.run] at h
  cases hs : Sys2Proof.core.step s with
  | next u => rw [hs] at h; exact ⟨u, hs, h⟩
  | fault f => rw [hs] at h; contradiction
  | refused f => rw [hs] at h; contradiction

theorem State.reaches_of_step {u : State} (h : step s = .next u) (hr : State.Reaches n u t) :
    State.Reaches (n + 1) s t := by
  unfold State.Reaches at *
  simp only [Host.Core.run]
  rw [show Sys2Proof.core.step s = .next u from h]
  exact hr

end Sys2Proof.Machine
end

