-- ==== Sys2Proof/Tests/Slice0.lean ====
section
/-! SUPPORT. The model's own tests. Expected values are the spec's: the test vectors V<n> of 95_test_vectors.md, the worked examples of
the rules, or words written out by hand from the opcode map and the formats (30_encoding R72, R75). The witnesses at the end meet
the hypotheses of the statements. -/

namespace Sys2Proof.Tests

open Sys2Proof.Machine

/-! ## Helpers -/

/-- The test vectors' parameters: DEFAULT_GAIN 0x80, the other defaults. -/
def testParams : Params := ⟨0x36, 0x80, defaultFieldCodes⟩

/-- A session of one agent with a program, the agent to move next. -/
def ready (prog : List Byte) : State := State.session testParams [prog] [0] []

/-- The same, with bytes stored beforehand. -/
def holding (a : Nat) (bytes prog : List Byte) : State := (ready prog).writeBytes a bytes

/-- The same, the first transport draw failing. -/
def failing (prog : List Byte) : State := State.session testParams [prog] [0] [true]

/-- The results logged after a step. -/
def logged : StepOutcome → List Result
  | .next t => t.agents.flatMap Agent.res
  | .fault _ => []
  | .refused _ => []

/-- Some bytes of the array after a step. -/
def bytesAfter (a n : Nat) : StepOutcome → List Byte
  | .next t => t.readBytes a n
  | .fault _ => []
  | .refused _ => []

/-- The marks after a step, `fault` first. -/
def marks : StepOutcome → List Bool
  | .next t => [t.fault, t.refused]
  | .fault _ => []
  | .refused _ => []

/-- What stopped the agents. -/
def stops : StepOutcome → List (Option Stop)
  | .next t => t.agents.map Agent.stop
  | .fault _ => []
  | .refused _ => []

/-- The agents' `pc` after a step. -/
def pcs : StepOutcome → List Nat
  | .next t => t.agents.map Agent.pc
  | .fault _ => []
  | .refused _ => []

/-- Scenario C's configuration. -/
def cfgC : Configuration := ⟨.LPM2, .Lsb3, .PWM, .Hz460, .X4, .Lsb18, false⟩

/-! ## Well-formedness smoke: one ill-formed term for each check (R74) -/

theorem test_wf_bool : (Instr.encodeStatus 0 0 2).failedChecks = [.bool] := by decide
theorem test_wf_pm : (Instr.encodeConfig 4 0 0 0 0 0 0).failedChecks = [.pm] := by decide
theorem test_wf_hyst : (Instr.setConfig 0 4 0 0 0 0 0).failedChecks = [.hyst] := by decide
theorem test_wf_outs : (Instr.setConfig 0 0 3 0 0 0 0).failedChecks = [.outs] := by decide
theorem test_wf_pwmf : (Instr.encodeConfig 0 0 0 4 0 0 0).failedChecks = [.pwmf] := by decide
theorem test_wf_sf : (Instr.encodeConfig 0 0 0 0 4 0 0).failedChecks = [.sf] := by decide
theorem test_wf_fth : (Instr.encodeConfig 0 0 0 0 0 8 0).failedChecks = [.fth] := by decide
theorem test_wf_dev : (Instr.busWrite 0x80 [0x07, 0x00]).failedChecks = [.dev] := by decide
theorem test_wf_bwr_len : (Instr.busWriteThenRead 0x36 [0x07, 0x08] 2).failedChecks = [.bwrLen] := by decide
theorem test_wf_max_len : (Instr.rfWrite 0 (List.replicate 65536 0)).failedChecks = [.maxLen] := by
  have key : ∀ data : List Byte, data.length = 65536 → (Instr.rfWrite 0 data).failedChecks = [.maxLen] := by
    intro data h
    simp only [Instr.failedChecks, lenChecks, h]
    rfl
  exact key _ List.length_replicate
theorem test_wf_bounds : (Instr.setConfig 3 3 2 3 3 7 1).failedChecks = [] := by decide

/-! ## Decoding: every row of the opcode map, a word written out from R72 and R75 -/

theorem test_decode_codec :
    decode [0x10, 0x08, 0x00] = .cmd (.decodeU12 0x08 0x00) [] ∧
    decode [0x11, 0x18, 0x00, 0x99] = .cmd (.encodeU12 0x1800) [0x99] ∧
    decode [0x12, 0x28] = .cmd (.decodeStatus 0x28) [] ∧
    decode [0x13, 0x01, 0x00, 0x00] = .cmd (.encodeStatus 1 0 0) [] ∧
    decode [0x14, 0x12, 0xAE] = .cmd (.decodeConfig 0x12 0xAE) [] ∧
    decode [0x15, 0x02, 0x03, 0x01, 0x00, 0x02, 0x04, 0x01] = .cmd (.encodeConfig 2 3 1 0 2 4 1) [] ∧
    decode [0x16, 0x06] = .cmd (.decodeBurnCount 0x06) [] := by decide

theorem test_decode_port_and_bus :
    decode [0x20, 0x10, 0x00, 0x02, 0xAA, 0xBB, 0xCC] = .cmd (.rfWrite 0x10 [0xAA, 0xBB]) [0xCC] ∧
    decode [0x21, 0x0B, 0x01, 0x02] = .cmd (.rfRead 0x0B 0x0102) [] ∧
    decode [0x30, 0x36, 0x00, 0x03, 0x07, 0x12, 0xAE] = .cmd (.busWrite 0x36 [0x07, 0x12, 0xAE]) [] ∧
    decode [0x31, 0x36, 0x00, 0x01, 0xFE, 0x00, 0x04] = .cmd (.busWriteThenRead 0x36 [0xFE] 4) [] ∧
    decode [0x32, 0x12, 0x00, 0x01, 0x99] = .cmd (.busTransaction 0x12 [0x99]) [] := by decide

theorem test_decode_control :
    decode [0x40, 0x0A, 0xBC] = .cmd (.setRawAngle 0x0ABC) [] ∧
    decode [0x41, 0x01, 0x00, 0x00] = .cmd (.setStatus 1 0 0) [] ∧
    decode [0x42, 0xC8] = .cmd (.setGain 0xC8) [] ∧
    decode [0x43, 0x03, 0xE8] = .cmd (.setMagnitude 0x03E8) [] := by decide

theorem test_decode_typed :
    decode [0x50] = .cmd .getBurnCount [] ∧ decode [0x51] = .cmd .getZeroPosition [] ∧
    decode [0x52, 0x01, 0x23] = .cmd (.setZeroPosition 0x0123) [] ∧ decode [0x53] = .cmd .getMaxPosition [] ∧
    decode [0x54, 0x1F, 0xFF] = .cmd (.setMaxPosition 0x1FFF) [] ∧ decode [0x55] = .cmd .getMaxAngle [] ∧
    decode [0x56, 0x04, 0x00] = .cmd (.setMaxAngle 0x0400) [] ∧ decode [0x57] = .cmd .getConfig [] ∧
    decode [0x58, 0x02, 0x03, 0x01, 0x00, 0x02, 0x04, 0x01] = .cmd (.setConfig 2 3 1 0 2 4 1) [] ∧
    decode [0x59] = .cmd .getStatus [] ∧ decode [0x5A] = .cmd .getRawAngle [] ∧ decode [0x5B] = .cmd .getAngle [] ∧
    decode [0x5C] = .cmd .getGain [] ∧ decode [0x5D] = .cmd .getMagnitude [] ∧ decode [0x5E] = .cmd .commitAngle [] ∧
    decode [0x5F] = .cmd .commitSettings [] := by decide

/-- V120, V121, V122, and a stream that ends inside its length field. -/
theorem test_decode_rejects :
    decode [0x77] = .invalid 0x77 ∧ decode [0x00] = .invalid 0x00 ∧ decode [0x10, 0x08] = .truncated ∧
    decode [0x20, 0x10, 0x00] = .truncated ∧ decode [0x31, 0x36, 0x00, 0x01, 0x07, 0x00] = .truncated := by decide

/-- No opcode byte stands twice in the map. -/
theorem test_opcodes_distinct : (opcodeMap.map OpcodeRow.byte).Nodup := by decide

/-- The example of R79, both ways. -/
theorem test_assembly :
    ((AsmLine.ofText "ENCODE_CONFIG LPM2, Lsb3, PWM, Hz460, X4, Lsb18, false").bind (assemble defaultFieldCodes)).map encode =
      some [0x15, 0x02, 0x03, 0x02, 0x02, 0x02, 0x04, 0x00] := by decide
/-- R79's numbers: decimal, and 0x hex in either case; no letter is a decimal digit. -/
theorem test_assembly_numbers :
    ["0x1F", "0xab", "4095", "12a", "0x"].map (fun w => numberOfWord w.toList) =
      [some 0x1F, some 0xAB, some 4095, none, none] := by decide
theorem test_assembly_lists :
    (AsmLine.ofText "BUS_WRITE_THEN_READ 0x36, [0x07], 2").bind (assemble defaultFieldCodes) =
      some (.busWriteThenRead 0x36 [0x07] 2) := by decide

/-- Table words: byte 0 alone, the operand bytes zero; and all 24 bits of ENCODE_U12 0x1800, first byte lowest. -/
theorem test_table_words :
    decodeTableWord 8 0x10 = some (.decodeU12 0 0) ∧ decodeTableWord 24 0x001811 = some (.encodeU12 0x1800) ∧
    decodeTableWord 8 0x77 = none := by decide

theorem test_fetch_word : ∃ t, step (State.reset.withFetchWord 24 0xBC0A40) = .next t ∧
    t.byteAt 0x0C = 0x0A ∧ t.byteAt 0x0D = 0xBC := ⟨_, rfl, rfl, rfl⟩

/-! ## Steps: codec -/

/-- V2. -/
theorem test_decode_u12 : logged (step (ready [0x10, 0xFF, 0xFF])) = [.ok (.u16 4095)] := by decide
/-- V9. -/
theorem test_encode_u12 : logged (step (ready [0x11, 0x18, 0x00])) = [.ok (.bytes [0x08, 0x00])] := by decide
/-- V15 and V13. -/
theorem test_decode_status : logged (step (ready [0x12, 0x28])) = [.ok (.status ⟨true, false, true⟩)] := by decide
theorem test_decode_status_other_bits :
    logged (step (ready [0x12, 0xC7])) = [.ok (.status ⟨false, false, false⟩)] := by decide
/-- V17 and V125. -/
theorem test_encode_status : logged (step (ready [0x13, 0x00, 0x01, 0x00])) = [.ok (.bytes [0x10])] := by decide
theorem test_encode_status_refused :
    stops (step (ready [0x13, 0x00, 0x00, 0x02])) = [some (.refused (.illFormed [.bool]))] := by decide
/-- V19 and V21. -/
theorem test_decode_config : logged (step (ready [0x14, 0x12, 0xAE])) = [.ok (.config cfgC)] := by decide
theorem test_decode_config_alias : logged (step (ready [0x14, 0xFF, 0xFF])) =
    [.ok (.config ⟨.LPM3, .Lsb3, .AnalogFull, .Hz920, .X2, .Lsb10, true⟩)] := by decide
/-- V24 and V25. -/
theorem test_encode_config :
    logged (step (ready [0x15, 0x02, 0x03, 0x02, 0x02, 0x02, 0x04, 0x00])) = [.ok (.bytes [0x12, 0xAE])] := by decide
theorem test_encode_config_top :
    logged (step (ready [0x15, 0x03, 0x03, 0x02, 0x03, 0x03, 0x07, 0x01])) = [.ok (.bytes [0x3F, 0xEF])] := by decide
/-- V31. -/
theorem test_decode_burn_count : logged (step (ready [0x16, 0x06])) = [.ok (.u8 2)] := by decide

/-! ## Steps: register-file port -/

/-- V42: two bytes stored, one dropped, no wrap to 0x00. -/
theorem test_rf_write_edge :
    bytesAfter 0xFE 2 (step (ready [0x20, 0xFE, 0x00, 0x03, 0x11, 0x22, 0x33])) = [0x11, 0x22] ∧
    bytesAfter 0x00 1 (step (ready [0x20, 0xFE, 0x00, 0x03, 0x11, 0x22, 0x33])) = [0x00] := by decide
/-- V43. -/
theorem test_rf_write_nothing : logged (step (ready [0x20, 0x05, 0x00, 0x00])) = [.ok .unit] := by decide
/-- P3's read: 0xFD to past the end. -/
theorem test_rf_read_edge : logged (step (holding 0xFE [0x11, 0x22] [0x21, 0xFD, 0x00, 0x04])) =
    [.ok (.bytes [0x00, 0x11, 0x22, 0x00])] := by decide
/-- V49. -/
theorem test_rf_read_reset : logged (step (ready [0x21, 0x19, 0x00, 0x02])) = [.ok (.bytes [0x00, 0x80])] := by decide

/-! ## Steps: bus adapter -/

/-- V60 and V70. -/
theorem test_bus_write :
    bytesAfter 0x07 2 (step (ready [0x30, 0x36, 0x00, 0x03, 0x07, 0x12, 0xAE])) = [0x12, 0xAE] := by decide
theorem test_bus_write_fails :
    logged (step (failing [0x30, 0x36, 0x00, 0x02, 0x07, 0x00])) = [.err .transportFailure] ∧
    bytesAfter 0x07 1 (step (failing [0x30, 0x36, 0x00, 0x02, 0x07, 0x00])) = [0x20] ∧
    pcs (step (failing [0x30, 0x36, 0x00, 0x02, 0x07, 0x00])) = [1] := by decide
/-- V65 and V67. -/
theorem test_bus_read : logged (step (ready [0x31, 0x36, 0x00, 0x01, 0x0B, 0x00, 0x01])) = [.ok (.bytes [0x20])] := by decide
theorem test_bus_read_refused : stops (step (ready [0x31, 0x36, 0x00, 0x02, 0x07, 0x08, 0x00, 0x02])) =
    [some (.refused (.illFormed [.bwrLen]))] := by decide
/-- V68, and V71: Unimplemented although the transport would fail. -/
theorem test_bus_transaction :
    stops (step (failing [0x32, 0x36, 0x00, 0x00])) = [some (.unimplemented 0x36)] ∧
    marks (step (failing [0x32, 0x36, 0x00, 0x00])) = [true, false] ∧
    logged (step (failing [0x32, 0x36, 0x00, 0x00])) = [] ∧ pcs (step (failing [0x32, 0x36, 0x00, 0x00])) = [0] := by decide

/-! ## Steps: control surface -/

/-- V81, and the filtered angle left (V80). -/
theorem test_set_raw_angle : bytesAfter 0x0C 4 (step (ready [0x40, 0xFF, 0xFF])) = [0x0F, 0xFF, 0x00, 0x00] := by decide
/-- V83, over a byte with other bits set (R181). -/
theorem test_set_status : bytesAfter 0x0B 1 (step (holding 0x0B [0xC7] [0x41, 0x01, 0x01, 0x00])) = [0x30] := by decide
/-- The example of R182. -/
theorem test_set_gain : bytesAfter 0x1A 1 (step (ready [0x42, 0xC8])) = [0xC8] := by decide
/-- V90. -/
theorem test_set_magnitude : bytesAfter 0x1B 2 (step (ready [0x43, 0x1F, 0xFF])) = [0x0F, 0xFF] := by decide
/-- R184: the transport does not matter to a control update. -/
theorem test_control_ignores_transport : logged (step (failing [0x42, 0xC8])) = [.ok .unit] := by decide

/-! ## Steps: typed accessors -/

/-- V117. -/
theorem test_get_burn_count : logged (step (holding 0x00 [0xFF] [0x50])) = [.ok (.u8 3)] := by decide
/-- The example of R203. -/
theorem test_get_zero_position : logged (step (holding 0x01 [0xF1, 0x23] [0x51])) = [.ok (.u16 0x123)] := by decide
/-- V102. -/
theorem test_set_zero_position : bytesAfter 0x01 2 (step (ready [0x52, 0x01, 0x23])) = [0x01, 0x23] := by decide
/-- Bytes [0F, FF] (V104) read back: 4095. -/
theorem test_get_max_position : logged (step (holding 0x03 [0x0F, 0xFF] [0x53])) = [.ok (.u16 4095)] := by decide
/-- V104. -/
theorem test_set_max_position : bytesAfter 0x03 2 (step (ready [0x54, 0x1F, 0xFF])) = [0x0F, 0xFF] := by decide
/-- Bytes [04, 00] (V106) read back: 1024. -/
theorem test_get_max_angle : logged (step (holding 0x05 [0x04, 0x00] [0x55])) = [.ok (.u16 1024)] := by decide
/-- V106. -/
theorem test_set_max_angle : bytesAfter 0x05 2 (step (ready [0x56, 0x04, 0x00])) = [0x04, 0x00] := by decide
/-- V107, and P2's second read. -/
theorem test_get_config : logged (step (ready [0x57])) =
    [.ok (.config ⟨.NOM, .Off, .AnalogFull, .Hz115, .X16, .SlowOnly, true⟩)] := by decide
theorem test_get_config_alias : logged (step (holding 0x07 [0xD2, 0xBE] [0x57])) =
    [.ok (.config ⟨.LPM2, .Lsb3, .AnalogFull, .Hz460, .X4, .Lsb18, false⟩)] := by decide
/-- V108 over bytes with hi[7:6] set (R210), and V109. -/
theorem test_set_config : bytesAfter 0x07 2 (step (holding 0x07 [0xC0, 0x30]
    [0x58, 0x02, 0x03, 0x02, 0x02, 0x02, 0x04, 0x00])) = [0x12, 0xAE] := by decide
theorem test_set_config_refused : stops (step (ready [0x58, 0x00, 0x00, 0x03, 0x00, 0x00, 0x00, 0x00])) =
    [some (.refused (.illFormed [.outs]))] := by decide
/-- Scenario B's byte 0x30, and V110. -/
theorem test_get_status : logged (step (holding 0x0B [0x30] [0x59])) = [.ok (.status ⟨true, true, false⟩)] := by decide
theorem test_get_status_reset : logged (step (ready [0x59])) = [.ok (.status ⟨true, false, false⟩)] := by decide
/-- V50. -/
theorem test_get_raw_angle : logged (step (holding 0x0C [0xF8, 0x00] [0x5A])) = [.ok (.u16 2048)] := by decide
/-- R213: not the raw angle. -/
theorem test_get_angle : logged (step (holding 0x0C [0x08, 0x00, 0x01, 0x23] [0x5B])) = [.ok (.u16 0x123)] := by decide
/-- V113. -/
theorem test_get_gain : logged (step (ready [0x5C])) = [.ok (.u8 0x80)] := by decide
/-- Bytes [03, E8] (V89) read back: 1000. -/
theorem test_get_magnitude : logged (step (holding 0x1B [0x03, 0xE8] [0x5D])) = [.ok (.u16 1000)] := by decide
/-- V115, the burn counter left. -/
theorem test_commit_angle :
    bytesAfter 0xFF 1 (step (ready [0x5E])) = [0x80] ∧ bytesAfter 0x00 1 (step (ready [0x5E])) = [0x00] := by decide
/-- V116. -/
theorem test_commit_settings : bytesAfter 0xFF 1 (step (ready [0x5F])) = [0x40] := by decide
/-- R201: a getter whose bus call fails logs the error. -/
theorem test_getter_fails : logged (step (failing [0x5C])) = [.err .transportFailure] := by decide

/-! ## Steps: refusals and the end of a run -/

/-- V120 and V122. -/
theorem test_invalid_refused :
    stops (step (ready [0x77])) = [some (.refused (.invalidOpcode 0x77))] ∧ marks (step (ready [0x77])) = [false, true] := by decide
theorem test_truncated_refused : stops (step (ready [0x10, 0x08])) = [some (.refused .truncated)] := by decide

/-- R255: with nothing left to run there is no step. -/
theorem test_run_end : step (ready []) = .refused .noAllowedStep := by rfl

/-! ## Witnesses: the hypotheses of each statement, met together -/

/-- A state and its invoking agent, for the statements about one command. -/
def s0 : State := ready []
def ag0 : Agent := Agent.start []

theorem witness_agent : s0.agents[s0.turn]? = some ag0 := by decide
theorem witness_agent_and_memory :
    s0.agents[s0.turn]? = some ag0 ∧ Memory.wf s0.params.defaultGain s0.mem ∧ s0.params.fieldCodes.Bijective := by decide
theorem witness_draws : (failing []).transportDraws.head? = some true ∧ s0.transportDraws.head? ≠ some true := by decide

theorem witness_DecodeOfEncode :
    (Instr.setConfig 3 3 2 3 3 7 1).WellFormed ∧ (Instr.busWriteThenRead 0x7F [0xFF] 0xFFFF).WellFormed ∧
    (Instr.rfWrite 0xFF []).WellFormed := by decide
theorem witness_EncodeOfDecode :
    decode ([0x20, 0xFF, 0x00, 0x01, 0x5A] ++ [0x77]) = .cmd (.rfWrite 0xFF [0x5A]) [0x77] := by decide
theorem witness_ProgramBytesAreCommands :
    ∀ i ∈ [Instr.setGain 0xC8, Instr.busTransaction 0x36 [], Instr.getGain], i.WellFormed := by decide

/-- R76's ranges at their ends: refused bytes, and the assigned bytes next to them. -/
theorem witness_InvalidOpcodes :
    (∀ b ∈ [(0x00 : Byte), 0x0F, 0x17, 0x1F, 0x22, 0x2F, 0x33, 0x3F, 0x44, 0x4F, 0x60, 0xFF], decode [b] = .invalid b) ∧
    (∀ b ∈ [(0x10 : Byte), 0x16, 0x20, 0x21, 0x30, 0x32, 0x40, 0x43, 0x50, 0x5F], decode [b] ≠ .invalid b) ∧
    s0.agents[s0.turn]? = some ag0 := by decide

/-- R78's cases: no length field yet, one byte too short, just long enough. -/
theorem witness_CommandLengths :
    (rowOfByte 0x20).isSome ∧ commandLength [0x20, 0xFE, 0x00] = none ∧
    commandLength [0x20, 0xFE, 0x00, 0x01] = some 5 ∧ commandLength [0x20, 0xFE, 0x00, 0x01, 0x5A] = some 5 ∧
    commandLength [0x31, 0x36, 0x00, 0x01] = some 7 ∧ commandLength [0x15] = some 8 ∧
    s0.agents[s0.turn]? = some ag0 := by decide

theorem witness_AssembleOfDisassemble : defaultFieldCodes.Bijective := by decide

/-- R74's clauses, each at its last admitted value and the next. -/
theorem witness_WellFormednessChecks :
    decode [0x13, 1, 1, 1] = .cmd (.encodeStatus 1 1 1) [] ∧ decode [0x41, 1, 2, 1] = .cmd (.setStatus 1 2 1) [] ∧
    ¬ (Instr.setStatus 1 2 1).WellFormed ∧
    decode [0x15, 3, 3, 2, 3, 3, 7, 1] = .cmd (.encodeConfig 3 3 2 3 3 7 1) [] ∧
    decode [0x58, 3, 3, 2, 3, 3, 8, 1] = .cmd (.setConfig 3 3 2 3 3 8 1) [] ∧ ¬ (Instr.setConfig 3 3 2 3 3 8 1).WellFormed ∧
    decode [0x30, 0x7F, 0, 0] = .cmd (.busWrite 0x7F []) [] ∧ decode [0x32, 0x80, 0, 0] = .cmd (.busTransaction 0x80 []) [] ∧
    ¬ (Instr.busTransaction 0x80 []).WellFormed ∧
    decode [0x31, 0x36, 0, 0, 0, 1] = .cmd (.busWriteThenRead 0x36 [] 1) [] ∧
    ¬ (Instr.busWriteThenRead 0x36 [] 1).WellFormed ∧ decode [0x42, 0xFF] = .cmd (.setGain 0xFF) [] := by decide

/-- The codec statements: an agent, and operands in and out of range. -/
theorem witness_EncodeU12Result :
    s0.agents[s0.turn]? = some ag0 ∧ (0x1800 : U16).toNat = (0x18 : Byte).toNat * 256 + (0x00 : Byte).toNat := by decide
theorem witness_EncodeStatusResult :
    ((1 : Byte).toNat ≤ 1 ∧ (0 : Byte).toNat ≤ 1) ∧ ¬ (2 : Byte).toNat ≤ 1 ∧ s0.agents[s0.turn]? = some ag0 := by decide
theorem witness_EncodeConfigResult :
    s0.agents[s0.turn]? = some ag0 ∧ s0.params.fieldCodes.Bijective ∧
    ((3 : Byte).toNat ≤ 3 ∧ (2 : Byte).toNat ≤ 2 ∧ (7 : Byte).toNat ≤ 7 ∧ (1 : Byte).toNat ≤ 1) ∧
    ¬ (3 : Byte).toNat ≤ 2 ∧ ¬ (8 : Byte).toNat ≤ 7 := by decide
theorem witness_ConfigRoundTrips : defaultFieldCodes.Bijective ∧ (0xBE : Byte).toNat / 16 % 4 = 3 := by decide
theorem witness_U12RoundTrips : (4095 : U16).toNat ≤ 4095 := by decide

theorem witness_RfWriteStores :
    s0.agents[s0.turn]? = some ag0 ∧ Memory.wf s0.params.defaultGain s0.mem ∧
    (0x00 : Byte).toNat * 256 + (0x03 : Byte).toNat = [(0x11 : Byte), 0x22, 0x33].length := by decide
theorem witness_RfReadReads :
    s0.agents[s0.turn]? = some ag0 ∧ (0x0102 : U16).toNat = (0x01 : Byte).toNat * 256 + (0x02 : Byte).toNat := by decide
theorem witness_RfWriteIdempotent : ∃ t u, Memory.wf s0.params.defaultGain s0.mem ∧
    (Instr.rfWrite 0xFE [0x11, 0x22, 0x33]).WellFormed ∧ exec (.rfWrite 0xFE [0x11, 0x22, 0x33]) s0 = .next t ∧
    exec (.rfWrite 0xFE [0x11, 0x22, 0x33]) t = .next u :=
  ⟨_, _, by decide, by decide, rfl, rfl⟩

/-- A bus write of no byte, of one, and of more; a call that fails and one that does not. -/
theorem witness_BusWriteStores :
    s0.agents[s0.turn]? = some ag0 ∧ Memory.wf s0.params.defaultGain s0.mem ∧ (0x7F : Byte).toNat ≤ 0x7F ∧
    (∀ p ∈ [((0x00 : Byte), ([] : List Byte)), (0x01, [0x1D]), (0x03, [0xFF, 0x01, 0x02])],
      (0x00 : Byte).toNat * 256 + p.1.toNat = p.2.length) ∧
    s0.transportDraws.head? ≠ some true ∧ (failing []).agents[(failing []).turn]? = some ag0 ∧
    Memory.wf (failing []).params.defaultGain (failing []).mem ∧ (failing []).transportDraws.head? = some true := by decide
theorem witness_BusWriteThenReadReads :
    s0.agents[s0.turn]? = some ag0 ∧ (0x7F : Byte).toNat ≤ 0x7F ∧
    (4 : U16).toNat = (0x00 : Byte).toNat * 256 + (0x04 : Byte).toNat ∧ s0.transportDraws.head? ≠ some true ∧
    (failing []).agents[(failing []).turn]? = some ag0 ∧ (failing []).transportDraws.head? = some true ∧
    ([] : List Byte).length ≠ 1 ∧ [(0x07 : Byte), 0x08].length ≠ 1 ∧ [(0x07 : Byte), 0x08].length ≤ 65535 := by decide
theorem witness_BusTransactionFaults :
    s0.agents[s0.turn]? = some ag0 ∧ (0x36 : Byte).toNat ≤ 0x7F ∧
    (0x00 : Byte).toNat * 256 + (0x00 : Byte).toNat = ([] : List Byte).length := by decide
theorem witness_DeviceAddressIgnored :
    ((0x00 : Byte).toNat ≤ 0x7F ∧ (0x7F : Byte).toNat ≤ 0x7F ∧ [(0x07 : Byte)].length = 1) ∧ [(0x07 : Byte)].length ≤ 65535 ∧
    s0.agents[s0.turn]? = some ag0 ∧ ∃ t, exec .getGain s0 = .next t := ⟨by decide, by decide, by decide, _, rfl⟩

/-- The statements of the control surface and of the typed accessors: an agent, a memory in canonical form, FIELD_CODES, a value
and its two bytes, and a draw of each kind. -/
theorem witness_stores :
    s0.agents[s0.turn]? = some ag0 ∧ Memory.wf s0.params.defaultGain s0.mem ∧ s0.params.fieldCodes.Bijective ∧
    (0xFFFF : U16).toNat = (0xFF : Byte).toNat * 256 + (0xFF : Byte).toNat ∧ s0.transportDraws.head? ≠ some true := by decide
theorem witness_failing_stores :
    (failing []).agents[(failing []).turn]? = some ag0 ∧ Memory.wf (failing []).params.defaultGain (failing []).mem ∧
    (failing []).params.fieldCodes.Bijective ∧ (failing []).transportDraws.head? = some true := by decide
theorem witness_AccessorsKeepReadOnlyRegisters :
    (∃ t, 0x50 ≤ (Instr.commitAngle).opcode.byte.toNat ∧ Memory.wf s0.params.defaultGain s0.mem ∧
      exec .commitAngle s0 = .next t) ∧
    (∃ t, 0x50 ≤ (Instr.setMaxAngle 5).opcode.byte.toNat ∧ Memory.wf s0.params.defaultGain s0.mem ∧
      exec (.setMaxAngle 5) s0 = .next t) ∧ (0x36 : Byte).toNat ≤ 0x7F :=
  ⟨⟨_, by decide, by decide, rfl⟩, ⟨_, by decide, by decide, rfl⟩, by decide⟩
theorem witness_TransportFailureIsAResult :
    (failing []).agents[(failing []).turn]? = some ag0 ∧ (Instr.getGain).WellFormed ∧
    Opcode.makesBusCall (Instr.getGain).opcode = true ∧ (failing []).transportDraws.head? = some true ∧
    (Instr.setGain 0).WellFormed ∧ Opcode.makesBusCall (Instr.setGain 0).opcode = false ∧
    (∃ t, exec (.setGain 0) (failing []) = .next t) ∧ s0.agents[s0.turn]? = some ag0 ∧
    s0.transportDraws.head? ≠ some true ∧ ∃ t, exec .getGain s0 = .next t :=
  ⟨by decide, by decide, by decide, by decide, by decide, by decide, ⟨_, rfl⟩, by decide, by decide, _, rfl⟩

/-- An agent that has run SET_GAIN 200 and now stands at GET_GAIN. -/
def mid : State := { ready [] with agents := [⟨[0x42, 0xC8, 0x5C], 1, [.ok .unit], false, none⟩] }

theorem witness_StepRunsDecodedCommand :
    mid.schedule = 0 :: [] ∧ mid.agents[0]? = some ⟨[0x42, 0xC8, 0x5C], 1, [.ok .unit], false, none⟩ ∧
    (∀ j ∈ [Instr.setGain 0xC8], j.WellFormed) ∧
    ([0x42, 0xC8, 0x5C] : List Byte) = [Instr.setGain 0xC8].flatMap encode ++ [0x5C] ∧ 1 = [Instr.setGain 0xC8].length ∧
    decode [0x5C] = .cmd .getGain [] := by decide

theorem witness_AnyAllowedAgentMayMove :
    ∃ ag, mid.agents[0]? = some ag ∧ ag.halted = false ∧ ag.pc < ag.commands.length := ⟨_, rfl, by decide, by decide⟩

/-- One state for each outcome of R243. -/
theorem witness_OutcomeOrder :
    ∀ p ∈ [(ready [0x77], OutcomeKind.refused), (ready [0x10], .refused), (ready [0x13, 0, 0, 2], .refused),
        (failing [0x32, 0x36, 0, 0], .unimplemented), (failing [0x5C], .transportFailure), (ready [0x5C], .ok)],
      ∃ ag c, p.1.chosen = some 0 ∧ p.1.agents[0]? = some ag ∧ ag.commands[ag.pc]? = some c ∧
        outcomeOf c (p.1.transportDraws.headD false) = p.2 := by
  intro p hp
  simp only [List.mem_cons, List.not_mem_nil, or_false] at hp
  rcases hp with rfl | rfl | rfl | rfl | rfl | rfl <;> exact ⟨_, _, rfl, rfl, rfl, rfl⟩

/-- A run that has ended, and one that has not. -/
theorem witness_RunEndsWhenNoAgentAllowed :
    (∀ ag ∈ s0.agents, ag.halted = true ∨ ag.commands.length ≤ ag.pc) ∧ ∃ t, step mid = .next t :=
  ⟨by decide, _, rfl⟩

theorem witness_StepChangesOnlyItsAgent :
    ∃ t, step (State.session testParams [[0x5C], [0x5D]] [1] []) = .next t ∧ t.agents.map Agent.pc = [0, 1] :=
  ⟨_, rfl, by decide⟩

/-- An agent has faulted, another moves on. -/
def halfStopped : State :=
  { State.session testParams [[], [0x5C]] [1] [] with
    fault := true
    agents := [⟨[0x32, 0x36, 0, 0], 0, [], true, some (.unimplemented 0x36)⟩, Agent.start [0x5C]] }

theorem witness_StopsAreForever :
    ∃ t ag, State.Reaches 1 halfStopped t ∧ halfStopped.fault = true ∧ halfStopped.agents[0]? = some ag ∧ ag.halted = true :=
  ⟨_, _, rfl, rfl, rfl, rfl⟩

theorem witness_StepKeepsInvariant : halfStopped.Inv ∧ ∃ t, step halfStopped = .next t := by
  refine ⟨⟨by decide, ?_, rfl, rfl⟩, _, rfl⟩
  intro ag h
  simp only [halfStopped, List.mem_cons, List.not_mem_nil, or_false] at h
  rcases h with rfl | rfl
  · exact ⟨rfl, by decide, fun _ => by decide, rfl⟩
  · exact ⟨rfl, by decide, fun h => absurd h (by decide), rfl⟩

/-- A run that ended well, and one that ended with the fault mark. -/
theorem witness_EndsWellIffNoMark :
    (s0.Inv ∧ s0.Ended ∧ s0.EndsWell) ∧ ∃ t, step halfStopped = .next t ∧ t.Ended ∧ t.fault = true := by
  refine ⟨⟨⟨by decide, ?_, rfl, rfl⟩, by decide, by decide⟩, _, rfl, by decide, rfl⟩
  intro ag h
  simp only [s0, ready, State.session, List.map_cons, List.map_nil, List.mem_cons, List.not_mem_nil, or_false] at h
  subst h
  exact ⟨rfl, by decide, fun h => absurd h (by decide), rfl⟩

theorem witness_RunsAreBounded : ∃ t, State.Reaches 1 mid t ∧ mid.remaining = 1 := ⟨_, rfl, by decide⟩

theorem witness_ReadsSeeTheLastStore :
    ∃ t, Memory.wf (ready [0x42, 0xC8]).params.defaultGain (ready [0x42, 0xC8]).mem ∧
      State.Reaches 1 (ready [0x42, 0xC8]) t ∧ lastStored ((ready [0x42, 0xC8]).stores 1) 0x1A = some 0xC8 :=
  ⟨_, by decide, rfl, by decide⟩

theorem witness_NoTearing :
    ∃ t, Memory.wf (ready [0x40, 0x0A, 0xBC]).params.defaultGain (ready [0x40, 0x0A, 0xBC]).mem ∧
      (∀ ag ∈ (ready [0x40, 0x0A, 0xBC]).agents, ∀ i, .cmd i ∈ ag.commands →
        (∀ a d, i ≠ .rfWrite a d) ∧ ∀ a d, i ≠ .busWrite a d) ∧
      State.Reaches 1 (ready [0x40, 0x0A, 0xBC]) t := by
  refine ⟨_, by decide, ?_, rfl⟩
  intro ag h i hi
  have ha : ag = Agent.start [0x40, 0x0A, 0xBC] := by simpa [ready, State.session] using h
  subst ha
  rw [show (Agent.start [0x40, 0x0A, 0xBC]).commands = [.cmd (.setRawAngle 0x0ABC)] by decide] at hi
  simp only [List.mem_cons, List.not_mem_nil, or_false] at hi
  injection hi with hi
  subst hi
  simp

theorem witness_ConfigUpdateCanBeLost :
    testParams.fieldCodes.Bijective ∧ (Instr.setConfig 0 0 0 0 0 0 0).WellFormed ∧ (Instr.setConfig 3 3 2 3 3 7 1).WellFormed ∧
    (Instr.setConfig 0 0 0 0 0 0 0).opcode = .setConfig ∧ (Instr.setConfig 3 3 2 3 3 7 1).opcode = .setConfig := by decide

/-- V118: bytes [C0, 30], whose decoded configuration is written back. -/
theorem witness_WriteBackNormalises : ∃ u t ag ag' c,
    Memory.wf (holding 0x07 [0xC0, 0x30] []).params.defaultGain (holding 0x07 [0xC0, 0x30] []).mem ∧
    (holding 0x07 [0xC0, 0x30] []).params.fieldCodes.Bijective ∧
    (holding 0x07 [0xC0, 0x30] []).agents[(holding 0x07 [0xC0, 0x30] []).turn]? = some ag ∧
    exec .getConfig (holding 0x07 [0xC0, 0x30] []) = .next u ∧ u.agents[u.turn]? = some ag' ∧
    ag'.res = ag.res ++ [.ok (.config c)] ∧ (Instr.setConfig 0 0 0 0 0 0 0).WellFormed ∧
    configOperands (holding 0x07 [0xC0, 0x30] []).params.fieldCodes 0 0 0 0 0 0 0 = c ∧
    u.transportDraws.head? ≠ some true ∧ exec (.setConfig 0 0 0 0 0 0 0) u = .next t ∧ t.readBytes 0x07 2 = [0x00, 0x00] :=
  ⟨_, _, _, _, _, by decide, by decide, rfl, rfl, rfl, rfl, by decide, by decide, by decide, rfl, by decide⟩

theorem witness_ResetValues :
    (State.session testParams [[0x5C]] [] []).agents[0]? = some (Agent.start [0x5C]) ∧ 0xFF ≤ 255 := by decide

end Sys2Proof.Tests
end

section
/-! PROOFS. The session start: what each byte of the array and each agent holds when a session creates the space (10_state R45,
R46), and what the codec reads there (R47). -/

namespace Sys2Proof.Machine

/-! ## The reset bytes -/

@[simp] theorem resetByte_configHi (g : Byte) : resetByte g 0x07 = 0x20 := rfl
@[simp] theorem resetByte_status (g : Byte) : resetByte g 0x0B = 0x20 := rfl
@[simp] theorem resetByte_gain (g : Byte) : resetByte g 0x1A = g := rfl

/-- Apart from the three bytes of R45 the array starts at zero. -/
theorem resetByte_eq_zero (g : Byte) {x : Nat} (hc : x ≠ 0x07) (hs : x ≠ 0x0B) (hg : x ≠ 0x1A) : resetByte g x = 0x00 := by
  simp only [resetByte, if_neg hc, if_neg hs, if_neg hg]

/-- A session's array is unwritten: each byte is its reset byte (past the array both are zero). -/
@[simp] theorem State.session_byteAt (p : Params) (progs : List (List Byte)) (sch : List Nat) (d : List Bool) (x : Nat) :
    (State.session p progs sch d).byteAt x = resetByte p.defaultGain x := by
  unfold State.byteAt
  split
  · rfl
  · exact (resetByte_eq_zero _ (by omega) (by omega) (by omega)).symm

@[simp] theorem State.reset_byteAt (x : Nat) : State.reset.byteAt x = resetByte Config.defaultGain x :=
  State.session_byteAt ..

/-! ## The agents at the start -/

/-- Agent `k` of a session is program `k`'s, at its start (R46). -/
theorem State.session_getElem?_agents {p : Params} {progs : List (List Byte)} {sch : List Nat} {d : List Bool} {k : Nat}
    {ag : Agent} (h : (State.session p progs sch d).agents[k]? = some ag) :
    ∃ prog, progs[k]? = some prog ∧ Agent.start prog = ag := by
  rwa [State.session_agents, List.getElem?_map, Option.map_eq_some_iff] at h

/-- Settles O53, from the reset byte that each address of a session holds and the start that each agent is at. -/
theorem resetValues : Obligations.ResetValues := by
  intro p progs sch draws
  refine ⟨by simp, by simp, by simp, ?zeros, rfl, rfl, by simp, ?agents⟩
  case zeros =>
    intro x _ hs hc hg
    rw [State.session_byteAt, resetByte_eq_zero _ hc hs hg]
  case agents =>
    intro k ag hag
    obtain ⟨prog, hprog, rfl⟩ := State.session_getElem?_agents hag
    exact ⟨hprog, rfl, rfl, rfl⟩

/-! ## Decoding the reset bytes -/

/-- No 12-bit register lies on one of the three bytes that start at another value than zero. -/
theorem decodeU12_reset (g : Byte) {a : Nat} (ha : a ∈ [0x01, 0x03, 0x05, 0x0C, 0x0E, 0x1B]) :
    decodeU12 (resetByte g a) (resetByte g (a + 1)) = 0 := by
  have hoff : ∀ a ∈ [0x01, 0x03, 0x05, 0x0C, 0x0E, 0x1B],
      (a ≠ 0x07 ∧ a ≠ 0x0B ∧ a ≠ 0x1A) ∧ a + 1 ≠ 0x07 ∧ a + 1 ≠ 0x0B ∧ a + 1 ≠ 0x1A := by decide
  obtain ⟨⟨hc, hs, hg⟩, hc', hs', hg'⟩ := hoff a ha
  rw [resetByte_eq_zero g hc hs hg, resetByte_eq_zero g hc' hs' hg']
  rfl

/-- The default codes give the configuration bytes 0x20, 0x00 only the watchdog (R47). -/
theorem decodeConfiguration_default_reset : decodeConfiguration defaultFieldCodes 0x20 0x00 =
    ⟨.NOM, .Off, .AnalogFull, .Hz115, .X16, .SlowOnly, true⟩ := by decide

/-- Settles O54: the codec, run on the reset bytes. -/
theorem resetDecodes : Obligations.ResetDecodes := by
  refine ⟨?status, ?config, ?gain, ?u12, ?burn⟩
  case status =>
    rw [State.reset_byteAt, resetByte_status]
    decide
  case config =>
    rw [State.reset_byteAt, State.reset_byteAt, resetByte_configHi,
      resetByte_eq_zero _ (by decide) (by decide) (by decide)]
    exact decodeConfiguration_default_reset
  case gain =>
    rw [State.reset_byteAt, resetByte_gain]
    rfl
  case u12 =>
    intro a ha
    rw [State.reset_byteAt, State.reset_byteAt, decodeU12_reset _ ha]
  case burn =>
    rw [State.reset_byteAt, resetByte_eq_zero _ (by decide) (by decide) (by decide)]
    decide

end Sys2Proof.Machine
end

section
/-! PROOFS. No tearing (20_memory R64): where every command of a run stores a quantity whole or not at all, the quantity is never
half of one update and half of another; and without the generic writes the raw angle, the magnitude and the gain are such
quantities. -/

namespace Sys2Proof.Machine

variable {s t : State} {i : Instr} {n : Nat}

/-! ## The commands of a run -/

/-- Command `i` is in some agent's program. -/
def State.Runs (s : State) (i : Instr) : Prop := ∃ ag ∈ s.agents, Fetched.cmd i ∈ ag.commands

/-- An agent that is replaced with its program kept brings no new command. -/
theorem State.runs_of_set {k : Nat} {ag ag' : Agent} (hag : s.agents[k]? = some ag) (hprog : ag'.prog = ag.prog)
    (ht : t.agents = s.agents.set k ag') (h : t.Runs i) : s.Runs i := by
  obtain ⟨b, hb, hi⟩ := h
  rw [ht] at hb
  rcases List.mem_or_eq_of_mem_set hb with hb | rfl
  · exact ⟨b, hb, hi⟩
  · exact ⟨ag, List.mem_of_getElem? hag, by rwa [Agent.commands, ← hprog]⟩

/-- What an item stores is nothing, or what its command stores. -/
theorem storeOfItem_cases (codes : FieldCodes) (fails : Bool) (c : Fetched) :
    storeOfItem codes fails c = none ∨ ∃ i, c = .cmd i ∧ storeOfItem codes fails c = storeOf codes i := by
  cases c with
  | invalid op => exact .inl rfl
  | truncated => exact .inl rfl
  | cmd i =>
    by_cases ho : outcomeOf (.cmd i) fails = .ok
    · exact .inr ⟨i, rfl, if_pos ho⟩
    · exact .inl (if_neg ho)

/-- A step keeps the parameters, the canonical memory and the commands of the run, and it leaves every byte, or stores what one
of the commands stores. -/
theorem step_stores (hm : Memory.wf s.params.defaultGain s.mem) (h : step s = .next t) :
    t.params = s.params ∧ Memory.wf t.params.defaultGain t.mem ∧ (∀ i, t.Runs i → s.Runs i) ∧
      ((∀ x, t.byteAt x = s.byteAt x) ∨
        ∃ i, s.Runs i ∧ ∀ x, t.byteAt x = (storedByte (storeOf s.params.fieldCodes i) x).getD (s.byteAt x)) := by
  obtain ⟨k, ag, ag', c, -, hag, -, hc, hp, -, hags, hmem, hcase⟩ := step_changes h
  obtain ⟨hwf, hbytes⟩ := step_mem hm hp hmem
  have hprog : ag'.prog = ag.prog := by
    rcases hcase with ⟨r, rfl, -⟩ | ⟨w, rfl, -⟩ <;> rfl
  refine ⟨hp, hwf, fun i => State.runs_of_set hag hprog hags, ?_⟩
  rcases storeOfItem_cases s.params.fieldCodes s.transportFails c with hst | ⟨i, rfl, hst⟩ <;> rw [hst] at hbytes
  · exact .inl hbytes
  · exact .inr ⟨i, ⟨ag, List.mem_of_getElem? hag, List.mem_of_getElem? hc⟩, hbytes⟩

/-! ## A quantity that is stored whole -/

/-- Command `i` stores nothing at the addresses `xs`, or it is one of the updates `upd` and stores a byte at each of them. -/
def StoresWhole {α : Type} (upd : α → Instr) (xs : List Nat) (i : Instr) : Prop :=
  ∀ codes : FieldCodes, (∀ x ∈ xs, storedByte (storeOf codes i) x = none) ∨
    ∃ v, i = upd v ∧ ∀ x ∈ xs, (storedByte (storeOf codes i) x).isSome

theorem StoresWhole.of_apart {α : Type} {upd : α → Instr} {xs : List Nat}
    (h : ∀ codes, ∀ x ∈ xs, storedByte (storeOf codes i) x = none) : StoresWhole upd xs i :=
  fun codes => .inl (h codes)

theorem StoresWhole.of_update {α : Type} {upd : α → Instr} {xs : List Nat} {v : α}
    (h : ∀ codes, ∀ x ∈ xs, (storedByte (storeOf codes (upd v)) x).isSome) : StoresWhole upd xs (upd v) :=
  fun codes => .inr ⟨v, rfl, h codes⟩

/-- After any run of commands that store the quantity at `xs` whole or not at all, it is what it was or what one of the updates
stores. By induction on the run: the last update decides, or where the rest of the run has none, the first step does. -/
theorem State.reaches_whole {α : Type} {upd : α → Instr} {xs : List Nat} (hm : Memory.wf s.params.defaultGain s.mem)
    (hwhole : ∀ i, s.Runs i → StoresWhole upd xs i) (hr : State.Reaches n s t) :
    (∀ x ∈ xs, t.byteAt x = s.byteAt x) ∨
      ∃ v, s.Runs (upd v) ∧ ∀ x ∈ xs, storedByte (storeOf s.params.fieldCodes (upd v)) x = some (t.byteAt x) := by
  induction n generalizing s with
  | zero =>
    rw [State.reaches_zero hr]
    exact .inl fun _ _ => rfl
  | succ n ih =>
    obtain ⟨u, hu, hr⟩ := State.reaches_succ hr
    obtain ⟨hp, hmu, hruns, hstep⟩ := step_stores hm hu
    rcases ih hmu (fun i hi => hwhole i (hruns i hi)) hr with hkept | ⟨v, hv, hlast⟩
    · rcases hstep with hsame | ⟨i, hi, hbytes⟩
      · exact .inl fun x hx => (hkept x hx).trans (hsame x)
      · rcases hwhole i hi s.params.fieldCodes with hnone | ⟨v, rfl, hall⟩
        · refine .inl fun x hx => ?_
          rw [hkept x hx, hbytes, hnone x hx, Option.getD_none]
        · refine .inr ⟨v, hi, fun x hx => ?_⟩
          obtain ⟨b, hb⟩ := Option.isSome_iff_exists.1 (hall x hx)
          rw [hkept x hx, hbytes, hb, Option.getD_some]
    · exact .inr ⟨v, hruns _ hv, hp ▸ hlast⟩

/-! ## The three quantities of R64 -/

/-- The command is neither of the two generic writes, RF_WRITE and BUS_WRITE. -/
def NotGenericWrite (i : Instr) : Prop := (∀ a d, i ≠ .rfWrite a d) ∧ ∀ a d, i ≠ .busWrite a d

/-- Besides the generic writes, only the three control updates store at an address of the raw angle, the gain or the
magnitude (R186, R218). -/
theorem storeOf_apart (hi : NotGenericWrite i) :
    (∃ v, i = .setRawAngle v) ∨ (∃ g, i = .setGain g) ∨ (∃ v, i = .setMagnitude v) ∨
      ∀ codes, ∀ x ∈ [0x0C, 0x0D, 0x1A, 0x1B, 0x1C], storedByte (storeOf codes i) x = none := by
  cases i with
  | rfWrite a d => exact absurd rfl (hi.1 a d)
  | busWrite a d => exact absurd rfl (hi.2 a d)
  | setRawAngle v => exact .inl ⟨v, rfl⟩
  | setGain g => exact .inr (.inl ⟨g, rfl⟩)
  | setMagnitude v => exact .inr (.inr (.inl ⟨v, rfl⟩))
  | setStatus | setZeroPosition | setMaxPosition | setMaxAngle | setConfig | commitAngle | commitSettings =>
    exact .inr (.inr (.inr (by simp [storeOf, storedByte, encodeU12, encodeConfiguration])))
  | _ => exact .inr (.inr (.inr fun _ _ _ => rfl))

/-- Each of the three quantities is stored whole by its own control update, and by no other command but the generic writes. -/
theorem storesWhole_controlled (hi : NotGenericWrite i) :
    StoresWhole Instr.setRawAngle [0x0C, 0x0D] i ∧ StoresWhole Instr.setGain [0x1A] i ∧
      StoresWhole Instr.setMagnitude [0x1B, 0x1C] i := by
  rcases storeOf_apart hi with ⟨v, rfl⟩ | ⟨g, rfl⟩ | ⟨v, rfl⟩ | hapart
  · refine ⟨.of_update ?_, .of_apart ?_, .of_apart ?_⟩ <;> simp [storeOf, storedByte, encodeU12]
  · refine ⟨.of_apart ?_, .of_update ?_, .of_apart ?_⟩ <;> simp [storeOf, storedByte]
  · refine ⟨.of_apart ?_, .of_apart ?_, .of_update ?_⟩ <;> simp [storeOf, storedByte, encodeU12]
  · have hsub {xs : List Nat} (h : xs ⊆ [0x0C, 0x0D, 0x1A, 0x1B, 0x1C]) (codes : FieldCodes) (x : Nat) (hx : x ∈ xs) :=
      hapart codes x (h hx)
    exact ⟨.of_apart (hsub (by decide)), .of_apart (hsub (by decide)), .of_apart (hsub (by decide))⟩

/-- The two bytes of a 12-bit quantity, after a run whose commands store it whole by the updates `upd`. -/
theorem State.reaches_u12 {upd : U16 → Instr} {a : Nat} (hm : Memory.wf s.params.defaultGain s.mem)
    (ha : a + 1 ≤ 255) (hupd : ∀ codes v, storeOf codes (upd v) = some (a, encodeU12 v))
    (hwhole : ∀ i, s.Runs i → StoresWhole upd [a, a + 1] i) (hr : State.Reaches n s t) :
    (t.byteAt a = s.byteAt a ∧ t.byteAt (a + 1) = s.byteAt (a + 1)) ∨
      ∃ ag ∈ s.agents, ∃ v : U16, .cmd (upd v) ∈ ag.commands ∧
        t.byteAt a = BitVec.ofNat 8 (v.toNat % 4096 / 256) ∧ t.byteAt (a + 1) = BitVec.ofNat 8 (v.toNat % 256) := by
  rcases State.reaches_whole hm hwhole hr with hkept | ⟨v, ⟨ag, hag, hv⟩, hstored⟩
  · exact .inl ⟨hkept a (by simp), hkept (a + 1) (by simp)⟩
  · have hhi := hstored a (by simp)
    have hlo := hstored (a + 1) (by simp)
    rw [hupd, encodeU12_eq] at hhi hlo
    refine .inr ⟨ag, hag, v, hv, ?_, ?_⟩
    · simpa [storedByte, show a ≤ 255 by omega] using hhi.symm
    · simpa [storedByte, ha] using hlo.symm

/-- Settles O49: each of the three quantities is stored whole by its own control update alone. -/
theorem noTearing : Obligations.NoTearing := by
  intro n s t hm hprogs hr
  have hplain : ∀ i, s.Runs i → NotGenericWrite i := fun i ⟨ag, hag, hi⟩ => hprogs ag hag i hi
  obtain ⟨hraw, hrest⟩ := forall₂_and.1 fun i hi => storesWhole_controlled (hplain i hi)
  obtain ⟨hgain, hmagnitude⟩ := forall₂_and.1 hrest
  constructor
  · intro p hp
    simp only [List.mem_cons, List.not_mem_nil, or_false] at hp
    rcases hp with rfl | rfl
    · exact State.reaches_u12 hm (by decide) (fun _ _ => rfl) hraw hr
    · exact State.reaches_u12 hm (by decide) (fun _ _ => rfl) hmagnitude hr
  · rcases State.reaches_whole hm hgain hr with hkept | ⟨g, ⟨ag, hag, hg⟩, hstored⟩
    · exact .inl (hkept 0x1A (by simp))
    · have hbyte := hstored 0x1A (by simp)
      exact .inr ⟨ag, hag, g, hg, by simpa [storeOf, storedByte] using hbyte.symm⟩

end Sys2Proof.Machine
end

section
/-! PROOFS. The decoder's verdicts (30_encoding R76, R78, R81): byte 0 alone decides Invalid, the length that byte 0 and the length
field give decides Truncated, and what a decoded command can fail of the checks of R74. -/

namespace Sys2Proof

/-! ## Invalid -/

/-- The bytes that select no row of the opcode map are the six ranges of R76. -/
theorem rowOfByte_eq_none_iff : ∀ b : Byte, rowOfByte b = none ↔
    b.toNat ≤ 0x0F ∨ (0x17 ≤ b.toNat ∧ b.toNat ≤ 0x1F) ∨ (0x22 ≤ b.toNat ∧ b.toNat ≤ 0x2F) ∨
      (0x33 ≤ b.toNat ∧ b.toNat ≤ 0x3F) ∨ (0x44 ≤ b.toNat ∧ b.toNat ≤ 0x4F) ∨ 0x60 ≤ b.toNat := by
  decide +kernel

/-- Invalid is the verdict on a byte 0 without a row, and names that byte. -/
theorem decode_eq_invalid_iff {b op : Byte} {operands : List Byte} :
    decode (b :: operands) = .invalid op ↔ op = b ∧ rowOfByte b = none := by
  cases hrow : rowOfByte b with
  | none => simp [decode_of_no_row hrow, eq_comm]
  | some r => simp [decode_of_row hrow, parseOperands_ne_invalid]

/-- Settles O4: byte 0 has no row exactly in the six ranges, and the refusal halts the invoking agent. -/
theorem invalidOpcodes : Obligations.InvalidOpcodes := by
  constructor
  · intro b op operands
    rw [decode_eq_invalid_iff, rowOfByte_eq_none_iff]
  · intro op s ag hag
    exact Machine.refuse_eq hag _

/-! ## Command lengths and Truncated -/

/-- The length of a command of format `f`, found from its operand bytes: none where they end before the length field does. -/
def Format.lengthOn (f : Format) (operands : List Byte) : Option Nat :=
  if f.hasLengthField then
    match operands with
    | _ :: nh :: nl :: _ => some (f.length (be16 nh nl).toNat)
    | _ => none
  else some (f.length 0)

/-- The length of a command is the one its row's format finds. -/
theorem commandLength_of_row {b : Byte} {r : OpcodeRow} (h : rowOfByte b = some r) (operands : List Byte) :
    commandLength (b :: operands) = r.format.lengthOn operands := by
  simp only [commandLength, h]
  rfl

/-- The verdict `v` on a stream is the one its command's length calls for (R78): Truncated where no length is found or the stream
is shorter, else a command of that length. -/
def ReadsLength (length : Option Nat) (stream : List Byte) (v : Verdict) : Prop :=
  match length with
  | none => v = .truncated
  | some n => if stream.length < n then v = .truncated else ∃ i, v = .cmd i (stream.drop n)

theorem ReadsLength.truncated {n : Nat} {stream : List Byte} (h : stream.length < n) :
    ReadsLength (some n) stream .truncated := by
  rw [ReadsLength, if_pos h]

theorem ReadsLength.cmd {n : Nat} {stream rest : List Byte} {i : Instr} (h : n ≤ stream.length)
    (hrest : stream.drop n = rest) : ReadsLength (some n) stream (.cmd i rest) := by
  rw [ReadsLength, if_neg (Nat.not_lt.2 h)]
  exact ⟨i, by rw [hrest]⟩

section
variable (op : Byte)

theorem parseF1_readsLength (mk : Byte → Instr) :
    ∀ bs, ReadsLength (Format.F1.lengthOn bs) (op :: bs) (parseF1 mk bs)
  | [] => .truncated (by simp [Format.length])
  | _ :: _ => .cmd (by simp [Format.length]) rfl

theorem parseF2_readsLength (mk : Byte → Byte → Instr) :
    ∀ bs, ReadsLength (Format.F2.lengthOn bs) (op :: bs) (parseF2 mk bs)
  | [] | [_] => .truncated (by simp [Format.length])
  | _ :: _ :: _ => .cmd (by simp [Format.length]) rfl

theorem parseFV_readsLength (mk : U16 → Instr) :
    ∀ bs, ReadsLength (Format.FV.lengthOn bs) (op :: bs) (parseFV mk bs)
  | [] | [_] => .truncated (by simp [Format.length])
  | _ :: _ :: _ => .cmd (by simp [Format.length]) rfl

theorem parseFS_readsLength (mk : Byte → Byte → Byte → Instr) :
    ∀ bs, ReadsLength (Format.FS.lengthOn bs) (op :: bs) (parseFS mk bs)
  | [] | [_] | [_, _] => .truncated (by simp [Format.length])
  | _ :: _ :: _ :: _ => .cmd (by simp [Format.length]) rfl

theorem parseFC_readsLength (mk : Byte → Byte → Byte → Byte → Byte → Byte → Byte → Instr) :
    ∀ bs, ReadsLength (Format.FC.lengthOn bs) (op :: bs) (parseFC mk bs)
  | [] | [_] | [_, _] | [_, _, _] | [_, _, _, _] | [_, _, _, _, _] | [_, _, _, _, _, _] => .truncated (by simp [Format.length])
  | _ :: _ :: _ :: _ :: _ :: _ :: _ :: _ => .cmd (by simp [Format.length]) rfl

theorem parseFRR_readsLength (mk : Byte → U16 → Instr) :
    ∀ bs, ReadsLength (Format.FRR.lengthOn bs) (op :: bs) (parseFRR mk bs)
  | [] | [_] | [_, _] => .truncated (by simp [Format.length])
  | _ :: _ :: _ :: _ => .cmd (by simp [Format.length]) rfl

/-- FRW, FBW and FBT have one layout: four bytes, then as many as the length field says. -/
theorem parseBlock_readsLength {f : Format} (hfield : f.hasLengthField = true) (hlength : ∀ n, f.length n = 4 + n)
    (mk : Byte → List Byte → Instr) :
    ∀ bs, ReadsLength (f.lengthOn bs) (op :: bs) (parseBlock mk bs)
  | [] | [_] | [_, _] => by unfold Format.lengthOn; rw [if_pos hfield]; rfl
  | b :: nh :: nl :: rest => by
    rw [Format.lengthOn, if_pos hfield, hlength, parseBlock]
    split
    · exact .cmd (by simp only [List.length_cons]; omega) (by rw [Nat.add_comm]; rfl)
    · exact .truncated (by simp only [List.length_cons]; omega)

theorem parseFBWR_readsLength (mk : Byte → List Byte → U16 → Instr) :
    ∀ bs, ReadsLength (Format.FBWR.lengthOn bs) (op :: bs) (parseFBWR mk bs)
  | [] | [_] | [_, _] => rfl
  | b :: nh :: nl :: rest => by
    show ReadsLength (some (6 + (be16 nh nl).toNat)) _ _
    rw [parseFBWR]
    generalize (be16 nh nl).toNat = n
    have hlength := List.length_drop (i := n) (l := rest)
    match hdrop : rest.drop n with
    | [] | [_] =>
      rw [hdrop] at hlength
      exact .truncated (by simp only [List.length_cons, List.length_nil] at hlength ⊢; omega)
    | mh :: ml :: rest' =>
      rw [hdrop] at hlength
      refine .cmd (by simp only [List.length_cons] at hlength ⊢; omega) ?_
      calc (op :: b :: nh :: nl :: rest).drop (6 + n)
        _ = (rest.drop n).drop 2 := by rw [List.drop_drop, show 6 + n = n + 2 + 4 by omega]; rfl
        _ = rest' := by rw [hdrop]; rfl

end

/-- The format of an operation's row (R75). -/
def Opcode.format (o : Opcode) : Format := ((rowOf o).map OpcodeRow.format).getD .F0

/-- The row that a byte selects holds its operation's format. -/
theorem format_of_row {b : Byte} {r : OpcodeRow} (h : rowOfByte b = some r) : r.op.format = r.format := by
  have hmap : ∀ r ∈ opcodeMap, r.op.format = r.format := by decide
  exact hmap r (List.mem_of_find?_eq_some h)

/-- The operands of every operation are read in its format's length. -/
theorem parseOperands_readsLength (op : Byte) (o : Opcode) (bs : List Byte) :
    ReadsLength (o.format.lengthOn bs) (op :: bs) (parseOperands o bs) := by
  cases o with
  | decodeStatus | decodeBurnCount | setGain => exact parseF1_readsLength op _ bs
  | decodeU12 | decodeConfig => exact parseF2_readsLength op _ bs
  | encodeU12 | setRawAngle | setMagnitude | setZeroPosition | setMaxPosition | setMaxAngle =>
    exact parseFV_readsLength op _ bs
  | encodeStatus | setStatus => exact parseFS_readsLength op _ bs
  | encodeConfig | setConfig => exact parseFC_readsLength op _ bs
  | rfRead => exact parseFRR_readsLength op _ bs
  | rfWrite | busWrite | busTransaction => exact parseBlock_readsLength op rfl (fun _ => rfl) _ bs
  | busWriteThenRead => exact parseFBWR_readsLength op _ bs
  | getBurnCount | getZeroPosition | getMaxPosition | getMaxAngle | getConfig | getStatus | getRawAngle | getAngle | getGain
  | getMagnitude | commitAngle | commitSettings => exact ReadsLength.cmd (n := 1) (by simp) rfl

/-- Settles O5, from the length in which each operation's operands are read. -/
theorem commandLengths : Obligations.CommandLengths := by
  constructor
  · intro b operands hassigned
    obtain ⟨r, hrow⟩ := Option.isSome_iff_exists.1 hassigned
    rw [commandLength_of_row hrow, decode_of_row hrow, ← format_of_row hrow]
    exact parseOperands_readsLength b r.op operands
  · intro s ag hag
    exact Machine.refuse_eq hag _

/-! ## Well-formedness of a decoded command -/

section
variable {bs rest : List Byte} {i : Instr}

/-! A command read in a format is the format's constructor on some operands. -/

theorem parseF1_eq_cmd {mk : Byte → Instr} (h : parseF1 mk bs = .cmd i rest) : ∃ b, mk b = i := by
  unfold parseF1 at h
  split at h <;> cases h
  exact ⟨_, rfl⟩

theorem parseF2_eq_cmd {mk : Byte → Byte → Instr} (h : parseF2 mk bs = .cmd i rest) : ∃ hi lo, mk hi lo = i := by
  unfold parseF2 at h
  split at h <;> cases h
  exact ⟨_, _, rfl⟩

theorem parseFV_eq_cmd {mk : U16 → Instr} (h : parseFV mk bs = .cmd i rest) : ∃ v, mk v = i := by
  unfold parseFV at h
  split at h <;> cases h
  exact ⟨_, rfl⟩

theorem parseFS_eq_cmd {mk : Byte → Byte → Byte → Instr} (h : parseFS mk bs = .cmd i rest) : ∃ d w s, mk d w s = i := by
  unfold parseFS at h
  split at h <;> cases h
  exact ⟨_, _, _, rfl⟩

theorem parseFC_eq_cmd {mk : Byte → Byte → Byte → Byte → Byte → Byte → Byte → Instr} (h : parseFC mk bs = .cmd i rest) :
    ∃ pm hyst outs pwmf sf fth wd, mk pm hyst outs pwmf sf fth wd = i := by
  unfold parseFC at h
  split at h <;> cases h
  exact ⟨_, _, _, _, _, _, _, rfl⟩

theorem parseFRR_eq_cmd {mk : Byte → U16 → Instr} (h : parseFRR mk bs = .cmd i rest) : ∃ start count, mk start count = i := by
  unfold parseFRR at h
  split at h <;> cases h
  exact ⟨_, _, rfl⟩

/-- As many bytes of a stream as a length field says are a data list that fits the field. -/
theorem length_take_be16_le (nh nl : Byte) (bs : List Byte) : (bs.take (be16 nh nl).toNat).length ≤ Config.maxLen :=
  (List.length_take_le ..).trans (Nat.le_of_lt_succ (be16 nh nl).isLt)

theorem parseBlock_eq_cmd {mk : Byte → List Byte → Instr} (h : parseBlock mk bs = .cmd i rest) :
    ∃ b data, data.length ≤ Config.maxLen ∧ mk b data = i := by
  unfold parseBlock at h
  split at h
  · dsimp only at h
    split at h <;> cases h
    exact ⟨_, _, length_take_be16_le .., rfl⟩
  · cases h

theorem parseFBWR_eq_cmd {mk : Byte → List Byte → U16 → Instr} (h : parseFBWR mk bs = .cmd i rest) :
    ∃ dev data m, data.length ≤ Config.maxLen ∧ mk dev data m = i := by
  unfold parseFBWR at h
  split at h
  · dsimp only at h
    split at h <;> cases h
    exact ⟨_, _, _, length_take_be16_le .., rfl⟩
  · cases h

end

/-- A command's data list, where it has one, fits the length field. -/
def Instr.DataFits : Instr → Prop
  | .rfWrite _ data | .busWrite _ data | .busWriteThenRead _ data _ | .busTransaction _ data => data.length ≤ Config.maxLen
  | _ => True

theorem parseOperands_dataFits {o : Opcode} {bs rest : List Byte} {i : Instr} (h : parseOperands o bs = .cmd i rest) :
    i.DataFits := by
  cases o with
  | rfWrite | busWrite | busTransaction =>
    obtain ⟨b, data, hfits, rfl⟩ := parseBlock_eq_cmd h
    exact hfits
  | busWriteThenRead =>
    obtain ⟨dev, data, m, hfits, rfl⟩ := parseFBWR_eq_cmd h
    exact hfits
  | decodeStatus | decodeBurnCount | setGain =>
    obtain ⟨b, rfl⟩ := parseF1_eq_cmd h
    trivial
  | decodeU12 | decodeConfig =>
    obtain ⟨hi, lo, rfl⟩ := parseF2_eq_cmd h
    trivial
  | encodeU12 | setRawAngle | setMagnitude | setZeroPosition | setMaxPosition | setMaxAngle =>
    obtain ⟨v, rfl⟩ := parseFV_eq_cmd h
    trivial
  | encodeStatus | setStatus =>
    obtain ⟨d, w, s, rfl⟩ := parseFS_eq_cmd h
    trivial
  | encodeConfig | setConfig =>
    obtain ⟨pm, hyst, outs, pwmf, sf, fth, wd, rfl⟩ := parseFC_eq_cmd h
    trivial
  | rfRead =>
    obtain ⟨start, count, rfl⟩ := parseFRR_eq_cmd h
    trivial
  | getBurnCount | getZeroPosition | getMaxPosition | getMaxAngle | getConfig | getStatus | getRawAngle | getAngle | getGain
  | getMagnitude | commitAngle | commitSettings =>
    cases h
    trivial

/-- A command is the verdict where byte 0 has a row and the operands are read as it. -/
theorem decode_eq_cmd {stream rest : List Byte} {i : Instr} (h : decode stream = .cmd i rest) :
    ∃ b operands r, stream = b :: operands ∧ rowOfByte b = some r ∧ parseOperands r.op operands = .cmd i rest := by
  cases stream with
  | nil => cases h
  | cons b operands =>
    cases hrow : rowOfByte b with
    | none => rw [decode_of_no_row hrow] at h; cases h
    | some r => exact ⟨b, operands, r, rfl, hrow, by rw [← decode_of_row hrow, h]⟩

theorem decode_dataFits {stream rest : List Byte} {i : Instr} (h : decode stream = .cmd i rest) : i.DataFits := by
  obtain ⟨b, operands, r, -, -, hparse⟩ := decode_eq_cmd h
  exact parseOperands_dataFits hparse

theorem devChecks_eq_nil {dev : Byte} : devChecks dev = [] ↔ dev.toNat ≤ 0x7F := by
  rw [devChecks, Check.unless_eq_nil, decide_eq_true_iff]

/-- Settles O8: a decoded data list passes its length check, so what is left are the named checks of R74. -/
theorem wellFormednessChecks : Obligations.WellFormednessChecks := by
  intro stream rest i hdecode
  have hfits := decode_dataFits hdecode
  refine ⟨?conditions, fun s ag hill hag => ⟨_, Machine.exec_not_wf hill hag⟩⟩
  cases i with
  | encodeStatus d w st | setStatus d w st => exact statusChecks_eq_nil d w st
  | encodeConfig pm hyst outs pwmf sf fth wd | setConfig pm hyst outs pwmf sf fth wd =>
    exact configChecks_eq_nil pm hyst outs pwmf sf fth wd
  | rfWrite start data => exact iff_of_true (lenChecks_eq_nil.2 hfits) trivial
  | busWrite dev data | busTransaction dev data =>
    have hlen : lenChecks data = [] := lenChecks_eq_nil.2 hfits
    simp only [Instr.WellFormed, Instr.failedChecks, hlen, List.append_nil, devChecks_eq_nil]
  | busWriteThenRead dev data m =>
    have hlen : lenChecks data = [] := lenChecks_eq_nil.2 hfits
    simp only [Instr.WellFormed, Instr.failedChecks, hlen, List.append_nil, List.append_eq_nil_iff, devChecks_eq_nil,
      Check.unless_eq_nil, decide_eq_true_iff]
  | _ => exact iff_of_true rfl trivial

end Sys2Proof
end

section
/-! PROOFS. The register codec (40_codec): what each codec command completes with or is refused by (R100 to R107), and the round-trip
laws of its three codecs (R106, R108, R109). -/

namespace Sys2Proof.Machine

/-! ## A bit-field of a byte, in place -/

/-- A bit of a byte, put back at its place, is the byte masked to it. -/
theorem bitsWhen_getLsbD (b : Byte) (i : Nat) : bitsWhen (b.getLsbD i) (BitVec.twoPow 8 i) = b &&& BitVec.twoPow 8 i :=
  (BitVec.and_twoPow b i).symm

theorem bitsWhen_shiftLeft (c : Bool) (v : Byte) (i : Nat) : bitsWhen c v <<< i = bitsWhen c (v <<< i) := by
  cases c
  · exact BitVec.zero_shiftLeft i
  · rfl

/-- A bit-field of a byte, put back at its place, is the byte masked to it. -/
theorem extractLsb'_shiftLeft (b : Byte) (i n : Nat) :
    (b.extractLsb' i n).setWidth 8 <<< i = b &&& (BitVec.allOnes n).setWidth 8 <<< i := by
  apply BitVec.eq_of_getLsbD_eq
  intro j hj
  by_cases hij : i ≤ j
  · simp [hj, Nat.not_lt.2 hij, Nat.add_sub_of_le hij, Bool.and_comm]
  · simp [hj, Nat.lt_of_not_le hij]

/-- Masking a byte keeps a bit-field that the mask has whole. -/
theorem extractLsb'_and_of_allOnes (b : Byte) {m : Byte} {i n : Nat} (h : m.extractLsb' i n = BitVec.allOnes n) :
    (b &&& m).extractLsb' i n = b.extractLsb' i n := by
  rw [BitVec.extractLsb'_and, h, BitVec.and_allOnes]

/-! ## The configuration codec -/

/-- The low byte of a configuration with output-stage code 0b11 cleared to 0b00 (R106). -/
def normalLo (lo : Byte) : Byte := if lo.toNat / 16 % 4 = 3 then lo &&& 0xCF else lo

theorem outputStage_bits_eq_three_iff (lo : Byte) : lo.extractLsb' 4 2 = 3 ↔ lo.toNat / 16 % 4 = 3 := by
  rw [← BitVec.toNat_inj, extractLsb'_eq_div]
  rfl

theorem encodeConfigHi_decode {t : FieldCodes} (ht : t.Bijective) (hi lo : Byte) :
    encodeConfigHi t (decodeConfiguration t hi lo) = hi &&& 0x3F := by
  obtain ⟨-, -, -, -, hsf, hfth⟩ := ht
  have hwd : bitsWhen (hi.getLsbD 5) 1 <<< 5 = hi &&& 0x20 :=
    (bitsWhen_shiftLeft _ _ _).trans (bitsWhen_getLsbD hi 5)
  have hthreshold : (hi.extractLsb' 2 3).setWidth 8 <<< 2 = hi &&& 0x1C := extractLsb'_shiftLeft hi 2 3
  have hfilter : (hi.extractLsb' 0 2).setWidth 8 = hi &&& 0x03 := by
    simpa using extractLsb'_shiftLeft hi 0 2
  simp only [encodeConfigHi, decodeConfiguration, codeOf_variantOf8 _ hfth, codeOf_variantOf4 _ hsf, hwd, hthreshold,
    hfilter, ← BitVec.and_or_distrib_left]
  rfl

theorem encodeConfigLo_decode {t : FieldCodes} (ht : t.Bijective) (hi lo : Byte) :
    encodeConfigLo t (decodeConfiguration t hi lo) = normalLo lo := by
  obtain ⟨hpm, hhyst, houts, hpwmf, -, -⟩ := ht
  have hfrequency : (lo.extractLsb' 6 2).setWidth 8 <<< 6 = lo &&& 0xC0 := extractLsb'_shiftLeft lo 6 2
  have hstage : (lo.extractLsb' 4 2).setWidth 8 <<< 4 = lo &&& 0x30 := extractLsb'_shiftLeft lo 4 2
  have hhysteresis : (lo.extractLsb' 2 2).setWidth 8 <<< 2 = lo &&& 0x0C := extractLsb'_shiftLeft lo 2 2
  have hmode : (lo.extractLsb' 0 2).setWidth 8 = lo &&& 0x03 := by
    simpa using extractLsb'_shiftLeft lo 0 2
  simp only [encodeConfigLo, decodeConfiguration, codeOf_variantOf4 _ hpm, codeOf_variantOf4 _ hhyst,
    codeOf_variantOf4 _ hpwmf, codeOf_outputStageOf _ houts, outputStage_bits_eq_three_iff, hfrequency, hhysteresis, hmode,
    normalLo]
  split
  · have hzero : (0 : Byte) <<< 4 = 0#8 := rfl
    rw [hzero, BitVec.or_zero, ← BitVec.and_or_distrib_left, ← BitVec.and_or_distrib_left]
    rfl
  · rw [hstage, ← BitVec.and_or_distrib_left, ← BitVec.and_or_distrib_left, ← BitVec.and_or_distrib_left]
    exact BitVec.and_allOnes

/-- The second law of R106: a decoded byte pair is encoded as itself, normalised. -/
theorem encode_decodeConfiguration {t : FieldCodes} (ht : t.Bijective) (hi lo : Byte) :
    encodeConfiguration t (decodeConfiguration t hi lo) = [hi &&& 0x3F, normalLo lo] := by
  rw [encodeConfiguration, encodeConfigHi_decode ht, encodeConfigLo_decode ht]

/-- A low byte with output-stage code 0b11 gives the variant of 0b00, as its normalised byte does (R35). -/
theorem outputStageOf_normalLo (t : Vector OutputStage 3) (lo : Byte) :
    outputStageOf t ((normalLo lo).extractLsb' 4 2) = outputStageOf t (lo.extractLsb' 4 2) := by
  unfold normalLo
  split
  · rename_i hcode
    rw [(outputStage_bits_eq_three_iff lo).2 hcode, BitVec.extractLsb'_and,
      show (0xCF : Byte).extractLsb' 4 2 = 0#2 by decide, BitVec.and_zero]
    rfl
  · rfl

/-- Normalising changes no other field of the low byte. -/
theorem extractLsb'_normalLo (lo : Byte) {i n : Nat} (h : (0xCF : Byte).extractLsb' i n = BitVec.allOnes n) :
    (normalLo lo).extractLsb' i n = lo.extractLsb' i n := by
  unfold normalLo
  split
  · exact extractLsb'_and_of_allOnes lo h
  · rfl

/-- A byte pair and its normalised pair decode to one configuration. -/
theorem decodeConfiguration_normal (t : FieldCodes) (hi lo : Byte) :
    decodeConfiguration t (hi &&& 0x3F) (normalLo lo) = decodeConfiguration t hi lo := by
  have hwd : (hi &&& 0x3F).getLsbD 5 = hi.getLsbD 5 := by simp
  simp only [decodeConfiguration, hwd, outputStageOf_normalLo]
  rw [extractLsb'_and_of_allOnes hi (by decide), extractLsb'_and_of_allOnes hi (by decide),
    extractLsb'_normalLo lo (by decide), extractLsb'_normalLo lo (by decide), extractLsb'_normalLo lo (by decide)]

/-- A table without repeats that has as many codes as its field has variants (`variants` lists them) gives every variant a
code (D4). -/
theorem exists_code {α : Type} {n : Nat} {t : Vector α n} (ht : t.toList.Nodup) {variants : List α}
    (hall : ∀ x, x ∈ variants) (hlength : variants.length ≤ n) (x : α) : ∃ (k : Nat) (hk : k < n), t[k] = x := by
  have hperm : t.toList.Perm variants :=
    (List.subperm_of_subset ht fun y _ => hall y).perm_of_length_le (by simpa using hlength)
  simpa [Vector.mem_iff_getElem] using hperm.mem_iff.2 (hall x)

theorem variantOf4_surjective {α : Type} {t : Vector α 4} (ht : t.toList.Nodup) {variants : List α}
    (hall : ∀ x, x ∈ variants) (hlength : variants.length ≤ 4) : Function.Surjective (variantOf4 t) := by
  intro x
  obtain ⟨k, hk, rfl⟩ := exists_code ht hall hlength x
  exact ⟨BitVec.ofNatLT k hk, rfl⟩

theorem variantOf8_surjective {α : Type} {t : Vector α 8} (ht : t.toList.Nodup) {variants : List α}
    (hall : ∀ x, x ∈ variants) (hlength : variants.length ≤ 8) : Function.Surjective (variantOf8 t) := by
  intro x
  obtain ⟨k, hk, rfl⟩ := exists_code ht hall hlength x
  exact ⟨BitVec.ofNatLT k hk, rfl⟩

theorem outputStageOf_surjective {t : Vector OutputStage 3} (ht : t.toList.Nodup) :
    Function.Surjective (outputStageOf t) := by
  intro x
  obtain ⟨k, hk, rfl⟩ := exists_code ht (variants := [.AnalogFull, .AnalogReduced, .PWM])
    (fun x => by cases x <;> simp) (by decide) x
  exact ⟨BitVec.ofNatLT k (by omega), dif_pos hk⟩

/-- A high byte can hold any watchdog bit, threshold code and slow-filter code. -/
theorem exists_configHi (wd : Bool) (fth : BitVec 3) (sf : BitVec 2) :
    ∃ hi : Byte, hi.getLsbD 5 = wd ∧ hi.extractLsb' 2 3 = fth ∧ hi.extractLsb' 0 2 = sf := by
  refine ⟨0#2 ++ BitVec.ofBool wd ++ fth ++ sf, ?wd, ?fth, BitVec.extractLsb'_append_eq_right⟩
  case wd =>
    rw [BitVec.getLsbD_append, BitVec.getLsbD_append, BitVec.getLsbD_append]
    simp
  case fth => exact (BitVec.extractLsb'_append_eq_of_le (by decide)).trans BitVec.extractLsb'_append_eq_right

/-- A low byte can hold any four codes. -/
theorem exists_configLo (pwmf outs hyst pm : BitVec 2) : ∃ lo : Byte, lo.extractLsb' 6 2 = pwmf ∧
    lo.extractLsb' 4 2 = outs ∧ lo.extractLsb' 2 2 = hyst ∧ lo.extractLsb' 0 2 = pm := by
  refine ⟨pwmf ++ outs ++ hyst ++ pm, ?pwmf, ?outs, ?hyst, BitVec.extractLsb'_append_eq_right⟩
  case pwmf =>
    exact (BitVec.extractLsb'_append_eq_of_le (by decide)).trans <|
      (BitVec.extractLsb'_append_eq_of_le (by decide)).trans BitVec.extractLsb'_append_eq_left
  case outs =>
    exact (BitVec.extractLsb'_append_eq_of_le (by decide)).trans <|
      (BitVec.extractLsb'_append_eq_of_le (by decide)).trans BitVec.extractLsb'_append_eq_right
  case hyst => exact (BitVec.extractLsb'_append_eq_of_le (by decide)).trans BitVec.extractLsb'_append_eq_right

/-- Under a bijective FIELD_CODES every configuration is decoded from some byte pair. -/
theorem exists_decodeConfiguration {t : FieldCodes} (ht : t.Bijective) (c : Configuration) :
    ∃ hi lo, decodeConfiguration t hi lo = c := by
  obtain ⟨hpm, hhyst, houts, hpwmf, hsf, hfth⟩ := ht
  obtain ⟨pm, hyst, outs, pwmf, sf, fth, wd⟩ := c
  obtain ⟨pm, rfl⟩ := variantOf4_surjective hpm (variants := [.NOM, .LPM1, .LPM2, .LPM3])
    (fun x => by cases x <;> simp) (by decide) pm
  obtain ⟨hyst, rfl⟩ := variantOf4_surjective hhyst (variants := [.Off, .Lsb1, .Lsb2, .Lsb3])
    (fun x => by cases x <;> simp) (by decide) hyst
  obtain ⟨outs, rfl⟩ := outputStageOf_surjective houts outs
  obtain ⟨pwmf, rfl⟩ := variantOf4_surjective hpwmf (variants := [.Hz115, .Hz230, .Hz460, .Hz920])
    (fun x => by cases x <;> simp) (by decide) pwmf
  obtain ⟨sf, rfl⟩ := variantOf4_surjective hsf (variants := [.X16, .X8, .X4, .X2])
    (fun x => by cases x <;> simp) (by decide) sf
  obtain ⟨fth, rfl⟩ := variantOf8_surjective hfth
    (variants := [.SlowOnly, .Lsb6, .Lsb7, .Lsb9, .Lsb18, .Lsb21, .Lsb24, .Lsb10])
    (fun x => by cases x <;> simp) (by decide) fth
  obtain ⟨hi, rfl, rfl, rfl⟩ := exists_configHi wd fth sf
  obtain ⟨lo, rfl, rfl, rfl, rfl⟩ := exists_configLo pwmf outs hyst pm
  exact ⟨hi, lo, rfl⟩

/-- Settles O16. Every configuration is decoded from some byte pair, so its encoding is that pair normalised, and normalising does
not change what a pair decodes to. -/
theorem configRoundTrips : Obligations.ConfigRoundTrips := by
  intro t ht
  refine ⟨fun c => ?_, encode_decodeConfiguration ht⟩
  obtain ⟨hi, lo, rfl⟩ := exists_decodeConfiguration ht c
  exact ⟨_, _, encode_decodeConfiguration ht hi lo, decodeConfiguration_normal t hi lo⟩

/-! ## The 12-bit codec -/

theorem hi8_mask12 (v : U16) : hi8 (v &&& 0x0FFF) = hi8 v &&& 0x0F := BitVec.extractLsb'_and

theorem lo8_mask12 (v : U16) : lo8 (v &&& 0x0FFF) = lo8 v :=
  BitVec.extractLsb'_and.trans BitVec.and_allOnes

/-- Masking to 12 bits twice is masking once. -/
@[simp] theorem mask12_mask12 (v : U16) : v &&& 0x0FFF &&& 0x0FFF = v &&& 0x0FFF := by
  rw [BitVec.and_assoc, BitVec.and_self]

theorem mask12_of_le {v : U16} (h : v.toNat ≤ 4095) : v &&& 0x0FFF = v := by
  apply BitVec.eq_of_toNat_eq
  rw [mask12_toNat, Nat.mod_eq_of_lt (Nat.lt_succ_of_le h)]

theorem decode_encodeU12 (v : U16) : ∃ hi lo, encodeU12 v = [hi, lo] ∧ decodeU12 hi lo = v &&& 0x0FFF :=
  ⟨_, _, rfl, by rw [decodeU12, be16_hi8_lo8, mask12_mask12]⟩

/-- Settles O17: splitting and joining are inverse, and the mask reaches the high byte's low half only. -/
theorem u12RoundTrips : Obligations.U12RoundTrips := by
  refine ⟨decode_encodeU12, fun v hv => ?_, fun hi lo => ?_⟩
  · have hround := decode_encodeU12 v
    rwa [mask12_of_le hv] at hround
  · rw [encodeU12, decodeU12, mask12_mask12, hi8_mask12, lo8_mask12, hi8_be16, lo8_be16]

/-! ## The status codec -/

theorem decode_encodeStatus (m : MagnetStatus) : decodeStatus (encodeStatus m) = m := by
  obtain ⟨detected, tooWeak, tooStrong⟩ := m
  revert detected tooWeak tooStrong
  decide

theorem encode_decodeStatus (b : Byte) : encodeStatus (decodeStatus b) = b &&& 0x38 :=
  calc encodeStatus (decodeStatus b)
    _ = b &&& 0x20 ||| b &&& 0x10 ||| b &&& 0x08 :=
      congrArg₂ (· ||| ·) (congrArg₂ (· ||| ·) (bitsWhen_getLsbD b 5) (bitsWhen_getLsbD b 4)) (bitsWhen_getLsbD b 3)
    _ = b &&& (0x20 ||| 0x10 ||| 0x08) := by rw [BitVec.and_or_distrib_left, BitVec.and_or_distrib_left]

/-- Settles O18: a triple is one of eight, and each bit of a byte comes back at its own place. -/
theorem statusRoundTrips : Obligations.StatusRoundTrips :=
  ⟨decode_encodeStatus, encode_decodeStatus⟩

/-! ## The codec commands -/

/-- Settles O9: the command is read in format F2, and logs the joined and masked number. -/
theorem decodeU12Result : Obligations.DecodeU12Result := by
  intro hi lo s ag hag
  refine ⟨fun rest => decode_byte .decodeU12 _, ?_⟩
  rw [← decodeU12_eq]
  exact complete_eq hag _

/-- Settles O10: the operand is joined from its two bytes, and logged masked and split. -/
theorem encodeU12Result : Obligations.EncodeU12Result := by
  intro hi lo v s ag hag hv
  constructor
  · intro rest
    rw [← be16_of_toNat hv]
    exact decode_byte .encodeU12 _
  · rw [← encodeU12_eq]
    exact complete_eq hag _

/-- Settles O11: each field of the triple is one bit of the byte. -/
theorem decodeStatusResult : Obligations.DecodeStatusResult := by
  intro b s ag hag
  refine ⟨fun rest => decode_byte .decodeStatus _, ?_⟩
  rw [← decodeStatus_eq]
  exact complete_eq hag _

/-- Settles O12: the check of ENCODE_STATUS passes exactly on operand bytes 0x00 and 0x01, and is WF_BOOL. -/
theorem encodeStatusResult : Obligations.EncodeStatusResult := by
  intro d w st s ag hag
  have hchecks : (Instr.encodeStatus d w st).WellFormed ↔ _ := statusChecks_eq_nil d w st
  refine ⟨fun rest => decode_byte .encodeStatus _, fun hrange => ?completes, fun hbad => ?refused⟩
  case completes =>
    rw [← encodeStatus_operands_eq hrange]
    exact (whenWellFormed_pos (hchecks.2 hrange) _).trans (complete_eq hag _)
  case refused =>
    rw [← statusChecks_of_bad hbad]
    exact exec_not_wf (mt hchecks.1 hbad) hag

/-- Settles O13: the configuration is the one the decoder reads from the pair. -/
theorem decodeConfigResult : Obligations.DecodeConfigResult := by
  intro hi lo s ag hag
  exact ⟨fun rest => decode_byte .decodeConfig _, _, decodeConfiguration_spec _ hi lo, complete_eq hag _⟩

/-- Settles O14: the checks of ENCODE_CONFIG pass exactly on operands in range, and each operand is then its variant's code. -/
theorem encodeConfigResult : Obligations.EncodeConfigResult := by
  intro pm hyst outs pwmf sf fth wd s ag hag ht
  have hchecks : (Instr.encodeConfig pm hyst outs pwmf sf fth wd).WellFormed ↔ _ :=
    configChecks_eq_nil pm hyst outs pwmf sf fth wd
  refine ⟨fun rest => decode_byte .encodeConfig _, fun hrange => ?completes, fun hbad => ?refused⟩
  case completes =>
    rw [← encodeConfiguration_operands_eq _ ht hrange]
    exact (whenWellFormed_pos (hchecks.2 hrange) _).trans (complete_eq hag _)
  case refused => exact ⟨_, exec_not_wf (mt hchecks.1 hbad) hag⟩

/-- Settles O15: masking with 0x03 is the remainder by 4. -/
theorem decodeBurnCountResult : Obligations.DecodeBurnCountResult := by
  intro b s ag hag
  refine ⟨fun rest => decode_byte .decodeBurnCount _, ?_⟩
  rw [← decodeBurnCount_eq]
  exact complete_eq hag _

end Sys2Proof.Machine
end

section
/-! PROOFS. The register-file port (41_register_port): the data list that a length field announces is read whole (R72), RF_WRITE
stores it (R140), RF_READ logs the bytes read (R141). -/

namespace Sys2Proof

/-- A data list is read whole where the length field before it holds its length, and the rest of the stream is left. -/
theorem parseBlock_data {nh nl : Byte} {data : List Byte} (h : nh.toNat * 256 + nl.toNat = data.length)
    (mk : Byte → List Byte → Instr) (b : Byte) (rest : List Byte) :
    parseBlock mk (b :: nh :: nl :: data ++ rest) = .cmd (mk b data) rest := by
  simp [parseBlock, h]

/-- A list whose length two bytes can spell fits the length field. -/
theorem length_le_maxLen {nh nl : Byte} {data : List Byte} (h : nh.toNat * 256 + nl.toNat = data.length) :
    data.length ≤ Config.maxLen := by
  rw [← h, ← be16_toNat]
  exact Nat.le_of_lt_succ (be16 nh nl).isLt

end Sys2Proof

namespace Sys2Proof.Machine

/-- RF_WRITE of a list that fits the length field stores the list and completes. -/
theorem exec_rfWrite {start : Byte} {data : List Byte} {s : State} {ag : Agent} (hfits : data.length ≤ Config.maxLen)
    (hag : s.agents[s.turn]? = some ag) :
    exec (.rfWrite start data) s = .next ((s.writeBytes start.toNat data).afterResult ag (.ok .unit)) := by
  have hwf : (Instr.rfWrite start data).WellFormed := lenChecks_eq_nil.2 hfits
  calc exec (.rfWrite start data) s
    _ = complete (.ok .unit) (s.writeBytes start.toNat data) :=
      whenWellFormed_pos hwf fun s => complete (.ok .unit) (s.writeBytes start.toNat data)
    _ = _ := complete_eq (s := s.writeBytes start.toNat data) hag _

/-- Settles O19: a decoded RF_WRITE passes its one check, so its whole data list is stored. -/
theorem rfWriteStores : Obligations.RfWriteStores := by
  intro start nh nl data s ag hag hm hlength
  refine ⟨fun rest => ?decodes, s.writeBytes start.toNat data, s.stored_writeBytes hm _ _, ?completes⟩
  case decodes => exact (decode_byte .rfWrite _).trans (parseBlock_data hlength _ _ _)
  case completes => exact exec_rfWrite (length_le_maxLen hlength) hag

/-- Settles O20: the logged bytes are those of `State.readBytes`, and the state completes as it was. -/
theorem rfReadReads : Obligations.RfReadReads := by
  intro start ch cl count s ag hag hcount
  constructor
  · intro rest
    rw [← be16_of_toNat hcount]
    exact decode_byte .rfRead _
  · exact ⟨_, s.length_readBytes _ _, s.getElem?_readBytes _ _, complete_eq hag _⟩

end Sys2Proof.Machine
end

section
/-! PROOFS. The bus adapter (42_bus_adapter): the device operand is checked and then ignored (R163), BUS_WRITE stores after the
register its first byte names (R160), BUS_WRITE_THEN_READ reads from it (R161), BUS_TRANSACTION faults (R162); and no command
depends on DEVICE_ADDRESS. -/

namespace Sys2Proof

/-- The checks of BUS_WRITE_THEN_READ on a 7-bit address and a list that fits: WF_BWR_LEN alone can fail. -/
theorem busWriteThenRead_failedChecks {dev : Byte} {data : List Byte} (hdev : dev.toNat ≤ 0x7F)
    (hfits : data.length ≤ Config.maxLen) (m : U16) :
    (Instr.busWriteThenRead dev data m).failedChecks = Check.unless .bwrLen (data.length = 1) := by
  rw [Instr.failedChecks, devChecks_eq_nil.2 hdev, lenChecks_eq_nil.2 hfits, List.nil_append, List.append_nil]

/-- BUS_WRITE_THEN_READ passes its checks when its address has 7 bits and its list one byte. -/
theorem busWriteThenRead_wellFormed {dev : Byte} {data : List Byte} (hdev : dev.toNat ≤ 0x7F) (hone : data.length = 1)
    (m : U16) : (Instr.busWriteThenRead dev data m).WellFormed :=
  (busWriteThenRead_failedChecks hdev (hone.trans_le (by decide)) m).trans (if_pos (decide_eq_true hone))

/-- A write list of one byte and the two bytes of `m` are read whole, and the rest of the stream is left. -/
theorem parseFBWR_one (mk : Byte → List Byte → U16 → Instr) (dev reg mh ml : Byte) (rest : List Byte) :
    parseFBWR mk (dev :: 0 :: 1 :: reg :: mh :: ml :: rest) = .cmd (mk dev [reg] (be16 mh ml)) rest := rfl

end Sys2Proof

namespace Sys2Proof.Machine

variable {s : State} {ag : Agent} {dev : Byte} {data : List Byte}

/-! ## The three commands -/

/-- The next transport draw does not fail exactly when the list of draws does not begin with true. -/
theorem State.transportFails_eq_false_iff : s.transportFails = false ↔ s.transportDraws.head? ≠ some true := by
  rw [ne_eq, ← State.transportFails_iff, Bool.not_eq_true]

/-- BUS_WRITE with a 7-bit address and a list that fits is a bus write. -/
theorem exec_busWrite (hdev : dev.toNat ≤ 0x7F) (hfits : data.length ≤ Config.maxLen) (s : State) :
    exec (.busWrite dev data) s = busWrite dev data s :=
  whenWellFormed_pos (busWrite_wellFormed hdev hfits) _

/-- BUS_WRITE_THEN_READ with a 7-bit address and one write byte is a bus read. -/
theorem exec_busWriteThenRead (hdev : dev.toNat ≤ 0x7F) (hone : data.length = 1) (m : U16) (s : State) :
    exec (.busWriteThenRead dev data m) s = busRead dev (data.getD 0 0).toNat m.toNat .bytes s :=
  whenWellFormed_pos (busWriteThenRead_wellFormed hdev hone m) _

/-- BUS_TRANSACTION has the checks of BUS_WRITE; where they pass it is Unimplemented. -/
theorem exec_busTransaction (hdev : dev.toNat ≤ 0x7F) (hfits : data.length ≤ Config.maxLen)
    (hag : s.agents[s.turn]? = some ag) :
    exec (.busTransaction dev data) s = .next (s.afterStop ag (.unimplemented dev)) :=
  (whenWellFormed_pos (busWrite_wellFormed hdev hfits) _).trans (raiseUnimplemented_eq hag dev)

/-- A bus write the transport lets through stores the bytes after the first, which for no byte, or one, are none. -/
theorem busWrite_ok (hok : s.transportFails = false) (hag : s.agents[s.turn]? = some ag) (dev : Byte) (data : List Byte) :
    busWrite dev data s =
      .next ((s.dropDraw.writeBytes (data.headD 0).toNat data.tail).afterResult ag (.ok .unit)) := by
  cases data with
  | nil => rw [busWrite_nil_eq hag, hok]; rfl
  | cons reg bytes => rw [busWrite_eq hag, hok]; rfl

/-- A read of the register file completes with the bytes read. -/
theorem exec_rfRead (hag : s.agents[s.turn]? = some ag) (start : Byte) (count : U16) :
    exec (.rfRead start count) s = .next (s.afterResult ag (.ok (.bytes (s.readBytes start.toNat count.toNat)))) :=
  complete_eq hag _

/-- Settles O22: a well-formed BUS_WRITE is a bus write, which fails with its draw or stores as RF_WRITE does. -/
theorem busWriteStores : Obligations.BusWriteStores := by
  intro dev nh nl data s ag hag hm hdev hlength
  have hfits := length_le_maxLen hlength
  rw [exec_busWrite hdev hfits]
  refine ⟨fun rest => ?decodes, fun hfail => ?fails, fun hok => ?stores⟩
  case decodes => exact (decode_byte .busWrite _).trans (parseBlock_data hlength _ _ _)
  case fails => exact withTransport_fail (State.transportFails_iff.2 hfail) hag _
  case stores =>
    have hwrite := busWrite_ok (State.transportFails_eq_false_iff.2 hok) hag dev data
    refine ⟨_, State.stored_writeBytes s.dropDraw hm _ _, hwrite, ?_⟩
    rintro reg bytes rfl
    exact hwrite.trans (exec_rfWrite (Nat.le_of_succ_le hfits) (s := s.dropDraw) hag).symm

/-- Settles O23: one write byte makes BUS_WRITE_THEN_READ a bus read, which fails with its draw or reads as RF_READ does;
another number of write bytes fails WF_BWR_LEN and no other check. -/
theorem busWriteThenReadReads : Obligations.BusWriteThenReadReads := by
  intro dev reg m s ag hag hdev
  rw [exec_busWriteThenRead hdev rfl]
  refine ⟨fun mh ml rest hm => ?decodes, fun hfail => ?fails, fun hok => ?reads, fun data hfits hone => ?refused⟩
  case decodes =>
    rw [← be16_of_toNat hm]
    exact (decode_byte .busWriteThenRead _).trans (parseFBWR_one _ _ _ _ _ _)
  case fails => exact withTransport_fail (State.transportFails_iff.2 hfail) hag _
  case reads =>
    have hread : busRead dev reg.toNat m.toNat .bytes s = exec (.rfRead reg m) s.dropDraw :=
      withTransport_ok (State.transportFails_eq_false_iff.2 hok) _
    have hbytes := hread.trans (exec_rfRead (s := s.dropDraw) hag reg m)
    exact ⟨_, s.length_readBytes _ _, s.getElem?_readBytes _ _, hbytes, hread⟩
  case refused =>
    have hchecks : (Instr.busWriteThenRead dev data m).failedChecks = [.bwrLen] :=
      (busWriteThenRead_failedChecks hdev hfits m).trans (if_neg (by simpa using hone))
    rw [← hchecks]
    exact exec_not_wf (by simp [Instr.WellFormed, hchecks]) hag

/-- Settles O24: BUS_TRANSACTION that passes its checks raises Unimplemented before any draw is taken. -/
theorem busTransactionFaults : Obligations.BusTransactionFaults := by
  intro dev nh nl data s ag hag hdev hlength
  refine ⟨fun rest => ?decodes, exec_busTransaction hdev (length_le_maxLen hlength) hag⟩
  case decodes => exact (decode_byte .busTransaction _).trans (parseBlock_data hlength _ _ _)

/-! ## DEVICE_ADDRESS -/

/-- `s` in a session whose DEVICE_ADDRESS is `a`. -/
def State.withDevice (s : State) (a : BitVec 7) : State := { s with params := { s.params with deviceAddress := a } }

/-- What `run` completes with is the same, but for the parameter itself, under every DEVICE_ADDRESS. -/
def IgnoresDevice (run : State → StepOutcome) : Prop :=
  ∀ (a : BitVec 7) (s t : State), run s = .next t → run (s.withDevice a) = .next (t.withDevice a)

section
variable {run : State → StepOutcome}

/-- Completing with a result, and after a change of the state, that do not depend on DEVICE_ADDRESS. -/
theorem IgnoresDevice.completing {r : State → Result} {f : State → State} (hr : ∀ s a, r (s.withDevice a) = r s)
    (hf : ∀ s a, f (s.withDevice a) = (f s).withDevice a) : IgnoresDevice fun s => complete (r s) (f s) := by
  intro a s t h
  simp only [hr, hf] at h ⊢
  cases hag : (f s).agents[(f s).turn]? with
  | none => rw [complete_none hag] at h; contradiction
  | some ag =>
    rw [complete_eq hag] at h
    cases h
    exact complete_eq (s := (f s).withDevice a) hag _

theorem IgnoresDevice.halting (w : Stop) : IgnoresDevice (halt w) := by
  intro a s t h
  cases hag : s.agents[s.turn]? with
  | none => rw [halt_none hag] at h; contradiction
  | some ag =>
    rw [halt_eq hag] at h
    cases h
    rw [halt_eq (s := s.withDevice a) hag]
    cases w <;> rfl

theorem IgnoresDevice.checked (hrun : IgnoresDevice run) (i : Instr) : IgnoresDevice fun s => whenWellFormed i s run := by
  by_cases hwf : i.WellFormed
  · simpa only [whenWellFormed_pos hwf] using hrun
  · simp only [whenWellFormed_neg hwf]
    exact .halting _

/-- The draw a bus call takes does not depend on DEVICE_ADDRESS. -/
theorem IgnoresDevice.transported (hrun : IgnoresDevice run) : IgnoresDevice fun s => withTransport s run := by
  intro a s t h
  have herr : IgnoresDevice (complete (.err .transportFailure)) := .completing (fun _ _ => rfl) fun _ _ => rfl
  by_cases hf : s.transportFails = true
  · exact (if_pos hf).trans (herr a s.dropDraw t ((if_pos hf).symm.trans h))
  · exact (if_neg hf).trans (hrun a s.dropDraw t ((if_neg hf).symm.trans h))

end

/-- A bus read, whatever device it names, with a decoder that may depend on the session's other parameters. -/
theorem IgnoresDevice.busReading (dev : State → Byte) (reg count : Nat) {dec : State → List Byte → Value}
    (hdec : ∀ s a, dec (s.withDevice a) = dec s) : IgnoresDevice fun s => busRead (dev s) reg count (dec s) s := by
  intro a s t h
  have hread : IgnoresDevice (busRead (dev s) reg count (dec s)) := .transported (.completing (fun _ _ => rfl) fun _ _ => rfl)
  simp only [hdec]
  exact hread a s t h

/-- A bus write, whatever device it names, of bytes that may depend on the session's other parameters. -/
theorem IgnoresDevice.busWriting (dev : State → Byte) {bytes : State → List Byte}
    (hbytes : ∀ s a, bytes (s.withDevice a) = bytes s) : IgnoresDevice fun s => busWrite (dev s) (bytes s) s := by
  intro a s t h
  have hwrite : IgnoresDevice (busWrite (dev s) (bytes s)) := by
    apply IgnoresDevice.transported
    cases bytes s with
    | nil => exact .completing (fun _ _ => rfl) fun _ _ => rfl
    | cons reg data => exact .completing (f := fun s => s.writeBytes reg.toNat data) (fun _ _ => rfl) fun _ _ => rfl
  simp only [hbytes]
  exact hwrite a s t h

/-- A setter's bus call, which carries DEVICE_ADDRESS. -/
theorem IgnoresDevice.setting (r : Register) {bytes : State → List Byte}
    (hbytes : ∀ s a, bytes (s.withDevice a) = bytes s) : IgnoresDevice fun s => setter r (bytes s) s :=
  .busWriting State.deviceByte fun s a => congrArg (_ :: ·) (hbytes s a)

/-- R163: every command is a result logged, a halt, or one bus call, after checks that read its operands alone. -/
theorem exec_ignoresDevice (i : Instr) : IgnoresDevice (exec i) := by
  cases i with
  | decodeU12 | encodeU12 | decodeStatus | decodeConfig | decodeBurnCount | rfRead | setRawAngle | setGain | setMagnitude =>
    exact .completing (fun _ _ => rfl) fun _ _ => rfl
  | encodeStatus | encodeConfig | setStatus => exact .checked (.completing (fun _ _ => rfl) fun _ _ => rfl) _
  | rfWrite start data =>
    exact .checked (.completing (f := fun s => s.writeBytes start.toNat data) (fun _ _ => rfl) fun _ _ => rfl) _
  | busWrite dev data => exact .checked (.busWriting (fun _ => dev) fun _ _ => rfl) _
  | busWriteThenRead dev data m => exact .checked (.busReading (fun _ => dev) _ _ fun _ _ => rfl) _
  | busTransaction dev data => exact .checked (.halting _) _
  | getBurnCount | getZeroPosition | getMaxPosition | getMaxAngle | getConfig | getStatus | getRawAngle | getAngle | getGain
  | getMagnitude => exact .busReading State.deviceByte _ _ fun _ _ => rfl
  | setZeroPosition | setMaxPosition | setMaxAngle | commitAngle | commitSettings =>
    exact .setting _ fun _ _ => rfl
  | setConfig => exact .checked (.setting _ fun _ _ => rfl) _

/-- Settles O25: a bus call does not read its device operand, a stop only records it, and no command reads DEVICE_ADDRESS. -/
theorem deviceAddressIgnored : Obligations.DeviceAddressIgnored := by
  refine ⟨?reads, ?writes, ?transactions, fun a i => exec_ignoresDevice i a⟩
  case reads =>
    intro dev dev' data m s hdev hdev' hone
    calc exec (.busWriteThenRead dev data m) s
      _ = busRead dev (data.getD 0 0).toNat m.toNat .bytes s := exec_busWriteThenRead hdev hone m s
      _ = busRead dev' (data.getD 0 0).toNat m.toNat .bytes s := rfl
      _ = exec (.busWriteThenRead dev' data m) s := (exec_busWriteThenRead hdev' hone m s).symm
  case writes =>
    intro dev dev' data s hdev hdev' hfits
    calc exec (.busWrite dev data) s
      _ = busWrite dev data s := exec_busWrite hdev hfits s
      _ = busWrite dev' data s := rfl
      _ = exec (.busWrite dev' data) s := (exec_busWrite hdev' hfits s).symm
  case transactions =>
    intro dev dev' data s ag hag hdev hdev' hfits
    have hturn : s.turn < s.agents.length := (List.getElem?_eq_some_iff.1 hag).1
    refine ⟨_, { ag with halted := true, stop := some (.unimplemented dev) }, exec_busTransaction hdev hfits hag, ?_, ?_⟩
    · rw [State.afterStop_agents, List.getElem?_set_self hturn]
    · rw [exec_busTransaction hdev' hfits hag]
      simp [State.afterStop, State.setAgent]

end Sys2Proof.Machine
end

section
/-! PROOFS. The control surface (43_control): SET_RAW_ANGLE and SET_MAGNITUDE store a masked value (R180, R183), SET_STATUS the encoded
triple (R181), SET_GAIN its byte (R182); each is one control update, which asks nothing of the transport (R184). -/

namespace Sys2Proof

/-- A command of format FV is read with its value joined from the two operand bytes. -/
theorem decode_FV {o : Opcode} {mk : U16 → Instr} (hformat : parseOperands o = parseFV mk) {hi lo : Byte} {v : U16}
    (hv : v.toNat = hi.toNat * 256 + lo.toNat) (rest : List Byte) :
    decode (o.byte :: hi :: lo :: rest) = .cmd (mk v) rest := by
  rw [decode_byte, hformat, parseFV, be16_of_toNat hv]

end Sys2Proof

namespace Sys2Proof.Machine

variable {s : State} {ag : Agent}

/-- A command that is a control update stores the update's bytes in its register and completes with `Ok(())`. -/
theorem exec_stores_of_controlUpdate {i : Instr} {r : Register} {bytes : List Byte}
    (hexec : exec i s = controlUpdate r bytes s) (hag : s.agents[s.turn]? = some ag)
    (hm : Memory.wf s.params.defaultGain s.mem) :
    ∃ u, s.Stored u r.base bytes ∧ exec i s = .next (u.afterResult ag (.ok .unit)) :=
  ⟨_, s.stored_writeBytes hm _ _, hexec.trans (controlUpdate_eq hag _ _)⟩

/-- SET_STATUS with boolean operands is a control update of the status byte. -/
theorem exec_setStatus {d w st : Byte} (h : d.toNat ≤ 1 ∧ w.toNat ≤ 1 ∧ st.toNat ≤ 1) (s : State) :
    exec (.setStatus d w st) s =
      controlUpdate .status [BitVec.ofNat 8 (32 * d.toNat + 16 * w.toNat + 8 * st.toNat)] s := by
  have hwf : (Instr.setStatus d w st).WellFormed := (statusChecks_eq_nil d w st).2 h
  rw [← encodeStatus_operands_eq h]
  exact whenWellFormed_pos hwf _

/-- Settles O26: both commands are read in format FV, and are control updates with the masked value's two bytes. -/
theorem controlSetsU12 : Obligations.ControlSetsU12 := by
  intro p hp hi lo v s ag hag hm hv
  rw [← encodeU12_eq]
  rcases List.mem_pair.1 hp with rfl | rfl
  · exact ⟨decode_FV (o := .setRawAngle) rfl hv, exec_stores_of_controlUpdate (r := .rawAngle) rfl hag hm⟩
  · exact ⟨decode_FV (o := .setMagnitude) rfl hv, exec_stores_of_controlUpdate (r := .magnitude) rfl hag hm⟩

/-- Settles O27: the check of SET_STATUS passes exactly on operand bytes 0x00 and 0x01, and is WF_BOOL. -/
theorem setStatusStores : Obligations.SetStatusStores := by
  intro d w st s ag hag hm
  refine ⟨fun rest => decode_byte .setStatus _, fun hrange => ?stores, fun hbad => ?refused⟩
  case stores => exact exec_stores_of_controlUpdate (r := .status) (exec_setStatus hrange s) hag hm
  case refused =>
    have hchecks : (Instr.setStatus d w st).failedChecks = [.bool] := statusChecks_of_bad hbad
    rw [← hchecks]
    exact exec_not_wf (by simp [Instr.WellFormed, hchecks]) hag

/-- Settles O28: the command is a control update with its operand byte. -/
theorem setGainStores : Obligations.SetGainStores := by
  intro gain s ag hag hm
  exact ⟨fun rest => decode_byte .setGain _, exec_stores_of_controlUpdate (r := .gain) rfl hag hm⟩

end Sys2Proof.Machine
end

section
/-! PROOFS. The typed accessors (44_typed_access): a getter is one bus read of its register and a setter one bus write to it (R200),
and either fails with its draw (R201). What each of them reads or stores (R202 to R217), the generic bus command it equals, and
the registers that none of them stores to (R218). -/

namespace Sys2Proof.Machine

variable {s t : State} {ag : Agent} {i : Instr} {r : Register} {a x : Nat} {bytes : List Byte}

/-! ## Getters and setters -/

/-- Where the draw does not fail, a getter logs its decoder's value of the register's bytes. -/
theorem getter_ok (hok : s.transportDraws.head? ≠ some true) (hag : s.agents[s.turn]? = some ag) (r : Register)
    (dec : List Byte → Value) :
    getter r dec s = .next (s.dropDraw.afterResult ag (.ok (dec (s.readBytes r.base r.width)))) :=
  (getter_eq hag r dec).trans (if_neg (mt State.transportFails_iff.1 hok))

/-- A command that is a getter logs the transport error where the draw fails, and the decoded bytes elsewhere. -/
theorem exec_reads_of_getter {dec : List Byte → Value} (hexec : exec i s = getter r dec s)
    (hag : s.agents[s.turn]? = some ag) :
    (s.transportDraws.head? = some true → exec i s = .next (s.dropDraw.afterResult ag (.err .transportFailure))) ∧
    (s.transportDraws.head? ≠ some true →
      exec i s = .next (s.dropDraw.afterResult ag (.ok (dec (s.readBytes r.base r.width))))) := by
  rw [hexec]
  exact ⟨fun hfail => withTransport_fail (State.transportFails_iff.2 hfail) hag _, fun hok => getter_ok hok hag r dec⟩

/-- A command that is a setter logs the transport error where the draw fails, the array left as it was; elsewhere its bytes are
stored in the register. -/
theorem exec_stores_of_setter (hexec : exec i s = setter r bytes s) (hag : s.agents[s.turn]? = some ag)
    (hm : Memory.wf s.params.defaultGain s.mem) :
    (s.transportDraws.head? = some true → exec i s = .next (s.dropDraw.afterResult ag (.err .transportFailure))) ∧
    (s.transportDraws.head? ≠ some true →
      ∃ u, s.dropDraw.Stored u r.base bytes ∧ exec i s = .next (u.afterResult ag (.ok .unit))) := by
  rw [hexec, setter_eq hag]
  refine ⟨fun hfail => if_pos (State.transportFails_iff.2 hfail), fun hok => ?_⟩
  exact ⟨_, State.stored_writeBytes s.dropDraw hm _ _, if_neg (mt State.transportFails_iff.1 hok)⟩

/-- The bytes of a register of two bytes. -/
theorem State.readBytes_pair (hr : r.width = 2) (s : State) :
    s.readBytes r.base r.width = [s.byteAt r.base, s.byteAt (r.base + 1)] := by
  rw [hr]; rfl

/-- The byte of a register of one byte. -/
theorem State.readBytes_byte (hr : r.width = 1) (s : State) : s.readBytes r.base r.width = [s.byteAt r.base] := by
  rw [hr]; rfl

/-- A command that is a getter of a 12-bit register logs the register's pair, joined and masked. -/
theorem exec_reads_of_getterU12 (hexec : exec i s = getterU12 r s) (hr : r.width = 2) (hag : s.agents[s.turn]? = some ag) :
    (s.transportDraws.head? = some true → exec i s = .next (s.dropDraw.afterResult ag (.err .transportFailure))) ∧
    (s.transportDraws.head? ≠ some true → exec i s = .next (s.dropDraw.afterResult ag (.ok (.u16
      (BitVec.ofNat 16 (((s.byteAt r.base).toNat * 256 + (s.byteAt (r.base + 1)).toNat) % 4096)))))) := by
  have hread := exec_reads_of_getter hexec hag
  rw [State.readBytes_pair hr] at hread
  rwa [← decodeU12_eq]

/-- A command that is a getter of a register of one byte logs its decoder's value of that byte. -/
theorem exec_reads_of_getterByte {dec : Byte → Value} (hexec : exec i s = getter r (onByte dec) s) (hr : r.width = 1)
    (hag : s.agents[s.turn]? = some ag) :
    (s.transportDraws.head? = some true → exec i s = .next (s.dropDraw.afterResult ag (.err .transportFailure))) ∧
    (s.transportDraws.head? ≠ some true →
      exec i s = .next (s.dropDraw.afterResult ag (.ok (dec (s.byteAt r.base))))) := by
  have hread := exec_reads_of_getter hexec hag
  rwa [State.readBytes_byte hr] at hread

/-! ## What each accessor reads or stores -/

/-- Settles O29: each of the six is the getter of its 12-bit register. -/
theorem gettersOfU12 : Obligations.GettersOfU12 := by
  intro p hp s ag hag
  simp only [List.mem_cons, List.not_mem_nil, or_false] at hp
  rcases hp with rfl | rfl | rfl | rfl | rfl | rfl
  · exact ⟨decode_byte .getZeroPosition, exec_reads_of_getterU12 (r := .zeroPosition) rfl rfl hag⟩
  · exact ⟨decode_byte .getMaxPosition, exec_reads_of_getterU12 (r := .maxPosition) rfl rfl hag⟩
  · exact ⟨decode_byte .getMaxAngle, exec_reads_of_getterU12 (r := .maxAngle) rfl rfl hag⟩
  · exact ⟨decode_byte .getRawAngle, exec_reads_of_getterU12 (r := .rawAngle) rfl rfl hag⟩
  · exact ⟨decode_byte .getAngle, exec_reads_of_getterU12 (r := .filteredAngle) rfl rfl hag⟩
  · exact ⟨decode_byte .getMagnitude, exec_reads_of_getterU12 (r := .magnitude) rfl rfl hag⟩

/-- Settles O30: each of the three is the getter of its register of one byte, its decoder as arithmetic. -/
theorem gettersOfOneByte : Obligations.GettersOfOneByte := by
  simp only [Obligations.GettersOfOneByte, ← decodeBurnCount_eq, ← decodeStatus_eq]
  intro p hp s ag hag
  simp only [List.mem_cons, List.not_mem_nil, or_false] at hp
  rcases hp with rfl | rfl | rfl
  · exact ⟨decode_byte .getBurnCount, exec_reads_of_getterByte (r := .burnCounter) rfl rfl hag⟩
  · exact ⟨decode_byte .getStatus, exec_reads_of_getterByte (r := .status) rfl rfl hag⟩
  · exact ⟨decode_byte .getGain, exec_reads_of_getterByte (r := .gain) rfl rfl hag⟩

/-- Settles O31: the configuration is the one the decoder reads from the register's pair. -/
theorem getConfigReads : Obligations.GetConfigReads := by
  intro s ag hag
  obtain ⟨hfails, hreads⟩ := exec_reads_of_getter (i := .getConfig) (r := .configuration) rfl hag
  exact ⟨decode_byte .getConfig, hfails, fun hok => ⟨_, decodeConfiguration_spec _ _ _, hreads hok⟩⟩

/-- Settles O32: each of the three is read in format FV, and is the setter of its register with the masked value's two bytes. -/
theorem settersOfU12 : Obligations.SettersOfU12 := by
  intro p hp hi lo v s ag hag hm hv
  rw [← encodeU12_eq]
  simp only [List.mem_cons, List.not_mem_nil, or_false] at hp
  rcases hp with rfl | rfl | rfl
  · exact ⟨decode_FV (o := .setZeroPosition) rfl hv, exec_stores_of_setter (r := .zeroPosition) rfl hag hm⟩
  · exact ⟨decode_FV (o := .setMaxPosition) rfl hv, exec_stores_of_setter (r := .maxPosition) rfl hag hm⟩
  · exact ⟨decode_FV (o := .setMaxAngle) rfl hv, exec_stores_of_setter (r := .maxAngle) rfl hag hm⟩

/-- SET_CONFIG that passes its checks is the setter of the configuration register. -/
theorem exec_setConfig {pm hyst outs pwmf sf fth wd : Byte} (hwf : (Instr.setConfig pm hyst outs pwmf sf fth wd).WellFormed)
    (s : State) : exec (.setConfig pm hyst outs pwmf sf fth wd) s = setter .configuration
      (encodeConfiguration s.params.fieldCodes (configOperands s.params.fieldCodes pm hyst outs pwmf sf fth wd)) s :=
  whenWellFormed_pos hwf _

/-- Settles O33: the checks of SET_CONFIG pass exactly on operands in range, and both bytes are then stored. -/
theorem setConfigStores : Obligations.SetConfigStores := by
  intro pm hyst outs pwmf sf fth wd s ag hag hm ht
  have hchecks : (Instr.setConfig pm hyst outs pwmf sf fth wd).WellFormed ↔ _ :=
    configChecks_eq_nil pm hyst outs pwmf sf fth wd
  refine ⟨fun rest => decode_byte .setConfig _, fun hrange => ?stores, fun hbad => ?refused⟩
  case stores =>
    rw [← encodeConfiguration_operands_eq _ ht hrange]
    exact exec_stores_of_setter (r := .configuration) (exec_setConfig (hchecks.2 hrange) s) hag hm
  case refused => exact ⟨_, exec_not_wf (mt hchecks.1 hbad) hag⟩

/-- A commit, a setter of the commit trigger, leaves the burn counter as it was. -/
theorem exec_stores_of_commit {code : Byte} (hexec : exec i s = setter .commitTrigger [code] s)
    (hag : s.agents[s.turn]? = some ag) (hm : Memory.wf s.params.defaultGain s.mem) :
    (s.transportDraws.head? = some true → exec i s = .next (s.dropDraw.afterResult ag (.err .transportFailure))) ∧
    (s.transportDraws.head? ≠ some true → ∃ u, s.dropDraw.Stored u 0xFF [code] ∧ u.byteAt 0x00 = s.byteAt 0x00 ∧
      exec i s = .next (u.afterResult ag (.ok .unit))) := by
  obtain ⟨hfails, hstores⟩ := exec_stores_of_setter hexec hag hm
  refine ⟨hfails, fun hok => ?_⟩
  obtain ⟨u, hu, hnext⟩ := hstores hok
  exact ⟨u, hu, (hu.2 0x00).trans (if_neg fun h => absurd h.1 (by decide)), hnext⟩

/-- Settles O34: each of the two is the setter of the commit trigger with its code. -/
theorem commitsOnlyStore : Obligations.CommitsOnlyStore := by
  intro p hp s ag hag hm
  rcases List.mem_pair.1 hp with rfl | rfl
  · exact ⟨decode_byte .commitAngle, exec_stores_of_commit rfl hag hm⟩
  · exact ⟨decode_byte .commitSettings, exec_stores_of_commit rfl hag hm⟩

/-! ## One bus call each -/

/-- DEVICE_ADDRESS has 7 bits. -/
theorem State.deviceByte_le (s : State) : s.deviceByte.toNat ≤ 0x7F := by
  have := s.params.deviceAddress.isLt
  rw [State.deviceByte, BitVec.toNat_setWidth]
  omega

/-- BUS_WRITE on DEVICE_ADDRESS of a register's address and at most two bytes is the register's setter. -/
theorem exec_busWrite_register (r : Register) (hfits : bytes.length ≤ 2) (s : State) :
    exec (.busWrite s.deviceByte (BitVec.ofNat 8 r.base :: bytes)) s = setter r bytes s :=
  exec_busWrite s.deviceByte_le ((Nat.succ_le_succ hfits).trans (by decide)) s

/-- BUS_WRITE_THEN_READ on DEVICE_ADDRESS of a register's address and width is the register's getter with no decoder. -/
theorem exec_busWriteThenRead_register {reg : Byte} {count : U16} (hreg : reg.toNat = r.base)
    (hcount : count.toNat = r.width) (s : State) :
    exec (.busWriteThenRead s.deviceByte [reg] count) s = getter r .bytes s := by
  rw [exec_busWriteThenRead s.deviceByte_le rfl, getter, ← hreg, ← hcount]
  rfl

/-- Where the draw fails, nothing is decoded (R201). -/
theorem getter_eq_of_fails (hfail : s.transportDraws.head? = some true) (r : Register) (dec dec' : List Byte → Value) :
    getter r dec s = getter r dec' s := by
  have hf := State.transportFails_iff.2 hfail
  exact (if_pos hf).trans (if_pos hf).symm

/-- Where the draw does not fail, a getter of a pair leaves what the bare bus read leaves, but for the value logged. -/
theorem getter_pair_ok (hok : s.transportDraws.head? ≠ some true) (hag : s.agents[s.turn]? = some ag) (hr : r.width = 2)
    (dec : Byte → Byte → Value) : ∃ (u : State) (hi lo : Byte),
      getter r .bytes s = .next (u.afterResult ag (.ok (.bytes [hi, lo]))) ∧
        getter r (onPair dec) s = .next (u.afterResult ag (.ok (dec hi lo))) := by
  refine ⟨_, _, _, ?_, getter_ok hok hag r _⟩
  rw [getter_ok hok hag, State.readBytes_pair hr]
  rfl

/-- Where the draw does not fail, a getter of a byte leaves what the bare bus read leaves, but for the value logged. -/
theorem getter_byte_ok (hok : s.transportDraws.head? ≠ some true) (hag : s.agents[s.turn]? = some ag) (hr : r.width = 1)
    (dec : Byte → Value) : ∃ (u : State) (b : Byte),
      getter r .bytes s = .next (u.afterResult ag (.ok (.bytes [b]))) ∧
        getter r (onByte dec) s = .next (u.afterResult ag (.ok (dec b))) := by
  refine ⟨_, _, ?_, getter_ok hok hag r _⟩
  rw [getter_ok hok hag, State.readBytes_byte hr]
  rfl

/-- Settles O35: each setter and commit is the bus write of its register, and each getter differs from the bus read of its
register in the decoder alone. -/
theorem accessorsAreOneBusCall : Obligations.AccessorsAreOneBusCall := by
  intro s ag hag dev codes pairs bytes
  have hdev : s.deviceByte = dev := (BitVec.ofNat_toNat 8 _).symm
  have hwrite (r : Register) {data : List Byte} (hfits : data.length ≤ 2) :
      setter r data s = exec (.busWrite dev (BitVec.ofNat 8 r.base :: data)) s :=
    hdev ▸ (exec_busWrite_register r hfits s).symm
  have hread {r : Register} {reg : Byte} {count : U16} (hreg : reg.toNat = r.base) (hcount : count.toNat = r.width) :
      exec (.busWriteThenRead dev [reg] count) s = getter r .bytes s :=
    hdev ▸ exec_busWriteThenRead_register hreg hcount s
  have hpairs : ∀ p ∈ pairs, ∃ r : Register, p.2.1.toNat = r.base ∧ r.width = 2 ∧
      exec p.1 s = getter r (onPair p.2.2) s := by
    simp only [pairs, List.forall_mem_cons]
    exact ⟨⟨.zeroPosition, rfl, rfl, rfl⟩, ⟨.maxPosition, rfl, rfl, rfl⟩, ⟨.maxAngle, rfl, rfl, rfl⟩,
      ⟨.rawAngle, rfl, rfl, rfl⟩, ⟨.filteredAngle, rfl, rfl, rfl⟩, ⟨.magnitude, rfl, rfl, rfl⟩,
      ⟨.configuration, rfl, rfl, rfl⟩, List.forall_mem_nil _⟩
  have hbytes : ∀ p ∈ bytes, ∃ r : Register, p.2.1.toNat = r.base ∧ r.width = 1 ∧
      exec p.1 s = getter r (onByte p.2.2) s := by
    simp only [bytes, List.forall_mem_cons]
    exact ⟨⟨.burnCounter, rfl, rfl, rfl⟩, ⟨.status, rfl, rfl, rfl⟩, ⟨.gain, rfl, rfl, rfl⟩, List.forall_mem_nil _⟩
  refine ⟨?setters, fun pm hyst outs pwmf sf fth wd hwf => ?setConfig, hwrite .commitTrigger (by decide),
    hwrite .commitTrigger (by decide), fun hfail => ⟨fun p hp => ?pairFails, fun p hp => ?byteFails⟩,
    fun hok => ⟨fun p hp => ?pairReads, fun p hp => ?byteReads⟩⟩
  case setters =>
    simp only [List.forall_mem_cons]
    exact ⟨fun v => hwrite .zeroPosition le_rfl, fun v => hwrite .maxPosition le_rfl, fun v => hwrite .maxAngle le_rfl,
      List.forall_mem_nil _⟩
  case setConfig => exact (exec_setConfig hwf s).trans (hwrite .configuration le_rfl)
  case pairFails =>
    obtain ⟨r, hreg, hwidth, hget⟩ := hpairs p hp
    exact hget.trans ((getter_eq_of_fails hfail _ _ _).trans (hread (count := 2) hreg hwidth.symm).symm)
  case byteFails =>
    obtain ⟨r, hreg, hwidth, hget⟩ := hbytes p hp
    exact hget.trans ((getter_eq_of_fails hfail _ _ _).trans (hread (count := 1) hreg hwidth.symm).symm)
  case pairReads =>
    obtain ⟨r, hreg, hwidth, hget⟩ := hpairs p hp
    rw [hget, hread (count := 2) hreg hwidth.symm]
    exact getter_pair_ok hok hag hwidth p.2.2
  case byteReads =>
    obtain ⟨r, hreg, hwidth, hget⟩ := hbytes p hp
    rw [hget, hread (count := 1) hreg hwidth.symm]
    exact getter_byte_ok hok hag hwidth p.2.2

/-! ## The registers no accessor stores to -/

/-- A store leaves an address below or above its bytes. -/
theorem storedByte_eq_none (h : x < a ∨ a + bytes.length ≤ x) : storedByte (some (a, bytes)) x = none := by
  simp only [storedByte]
  split
  · exact List.getElem?_eq_none (by omega)
  · rfl

/-- What a typed accessor stores, if anything: the two bytes of one of the four registers from 0x01 to 0x08, or a commit's code
at 0xFF (R204 to R217). -/
theorem storeOf_typed (hi : 0x50 ≤ i.opcode.byte.toNat) (codes : FieldCodes) :
    storeOf codes i = none ∨
    (∃ a bytes, storeOf codes i = some (a, bytes) ∧ 0x01 ≤ a ∧ a ≤ 0x07 ∧ bytes.length = 2) ∨
    ((i = .commitAngle ∨ i = .commitSettings) ∧ ∃ code, storeOf codes i = some (0xFF, [code])) := by
  cases i with
  | getBurnCount | getZeroPosition | getMaxPosition | getMaxAngle | getConfig | getStatus | getRawAngle | getAngle | getGain
  | getMagnitude => exact .inl rfl
  | setZeroPosition | setMaxPosition | setMaxAngle | setConfig =>
    exact .inr (.inl ⟨_, _, rfl, by decide, by decide, rfl⟩)
  | commitAngle => exact .inr (.inr ⟨.inl rfl, _, rfl⟩)
  | commitSettings => exact .inr (.inr ⟨.inr rfl, _, rfl⟩)
  | _ => exact absurd hi (by simp only [Instr.opcode]; decide)

/-- A typed accessor stores nothing at 0x00 or from 0x09 to 0xFE, and at 0xFF nothing unless it is a commit (R218). -/
theorem storedByte_typed (hi : 0x50 ≤ i.opcode.byte.toNat) (codes : FieldCodes)
    (hx : x = 0x00 ∨ 0x09 ≤ x) (hcommit : x < 0xFF ∨ (i ≠ .commitAngle ∧ i ≠ .commitSettings)) :
    storedByte (storeOf codes i) x = none := by
  rcases storeOf_typed hi codes with hst | ⟨a, bytes, hst, ha, ha', hlength⟩ | ⟨hi, code, hst⟩ <;> rw [hst]
  · rfl
  · exact storedByte_eq_none (by omega)
  · exact storedByte_eq_none (.inl (by tauto))

/-- What a command that answers a next state left: its agent stopped, or logged the transport error, or completed with Ok. -/
theorem exec_next_cases (h : exec i s = .next t) : ∃ ag,
    (∃ why, t = s.afterStop ag why) ∨ t = s.dropDraw.afterResult ag (.err .transportFailure) ∨
      ∃ v, t = (okState i s).afterResult ag (.ok v) := by
  cases hag : s.agents[s.turn]? with
  | none => rw [exec_no_agent i hag] at h; contradiction
  | some ag =>
    have hspec := exec_spec i hag
    rw [h] at hspec
    refine ⟨ag, ?_⟩
    split at hspec
    · exact .inl ⟨_, Host.Outcome.next.inj hspec⟩
    · obtain ⟨dev, data, -, hnext⟩ := hspec
      exact .inl ⟨_, Host.Outcome.next.inj hnext⟩
    · exact .inr (.inl (Host.Outcome.next.inj hspec))
    · obtain ⟨v, hnext⟩ := hspec
      exact .inr (.inr ⟨v, Host.Outcome.next.inj hnext⟩)

/-- The bytes of the array after a command's store, its draw taken or not. -/
theorem byteAt_okState (hm : Memory.wf s.params.defaultGain s.mem) (i : Instr) (x : Nat) :
    (okState i s).byteAt x = (storedByte (storeOf s.params.fieldCodes i) x).getD (s.byteAt x) := by
  unfold okState
  split
  · exact State.byteAt_applyStore (s := s.dropDraw) hm _ x
  · exact State.byteAt_applyStore hm _ x

/-- A command that answers a next state leaves every byte that it has no store for. -/
theorem exec_byteAt_of_not_stored (hm : Memory.wf s.params.defaultGain s.mem) (h : exec i s = .next t)
    (hx : storedByte (storeOf s.params.fieldCodes i) x = none) : t.byteAt x = s.byteAt x := by
  obtain ⟨ag, ⟨why, rfl⟩ | rfl | ⟨v, rfl⟩⟩ := exec_next_cases h
  · exact s.byteAt_afterStop ag why x
  · rfl
  · rw [State.byteAt_afterResult, byteAt_okState hm, hx, Option.getD_none]

/-- The byte of a store of one byte in the array is there. -/
theorem State.Stored.byteAt_self {b : Byte} (h : s.Stored t a [b]) (ha : a ≤ 255) : t.byteAt a = b := by
  rw [h.2, if_pos ⟨le_rfl, Nat.lt_succ_self a, ha⟩, Nat.sub_self]
  rfl

/-- Settles O36: no accessor has a store for the read-only registers, nor one but a commit for 0xFF; a generic write of one byte
at 0xFF stores it. -/
theorem accessorsKeepReadOnlyRegisters : Obligations.AccessorsKeepReadOnlyRegisters := by
  refine ⟨fun i s t hi hm h => ⟨fun x hx => ?readOnly, fun hangle hsettings => ?trigger⟩,
    fun b dev s ag hag hm => ⟨?rfWrite, fun hdev hok => ?busWrite⟩⟩
  case readOnly =>
    have hrange : (x = 0x00 ∨ 0x09 ≤ x) ∧ x < 0xFF := by
      revert x; decide
    exact exec_byteAt_of_not_stored hm h (storedByte_typed hi _ hrange.1 (.inl hrange.2))
  case trigger =>
    exact exec_byteAt_of_not_stored hm h (storedByte_typed hi _ (.inr (by decide)) (.inr ⟨hangle, hsettings⟩))
  case rfWrite =>
    exact ⟨_, exec_rfWrite (by simp [Config.maxLen]) hag, (s.stored_writeBytes hm 0xFF [b]).byteAt_self le_rfl⟩
  case busWrite =>
    have hwrite := busWrite_ok (State.transportFails_eq_false_iff.2 hok) hag dev [0xFF, b]
    exact ⟨_, (exec_busWrite hdev (by simp [Config.maxLen]) s).trans hwrite,
      (s.dropDraw.stored_writeBytes hm 0xFF [b]).byteAt_self le_rfl⟩

end Sys2Proof.Machine
end

section
/-! PROOFS. Exceptions (60_exceptions): which commands make a bus call (R164) and that a failed draw of one is a logged result
(R242) that no other command has; and that a step has the outcome which the order of the checks gives its item (R246). -/

namespace Sys2Proof

theorem Instr.opcode_eq_busWrite_iff {i : Instr} : i.opcode = .busWrite ↔ ∃ dev data, i = .busWrite dev data := by
  constructor
  · intro h
    cases i with
    | busWrite dev data => exact ⟨dev, data, rfl⟩
    | _ => simp [Instr.opcode] at h
  · rintro ⟨dev, data, rfl⟩
    rfl

theorem Instr.opcode_eq_busWriteThenRead_iff {i : Instr} :
    i.opcode = .busWriteThenRead ↔ ∃ dev data m, i = .busWriteThenRead dev data m := by
  constructor
  · intro h
    cases i with
    | busWriteThenRead dev data m => exact ⟨dev, data, m, rfl⟩
    | _ => simp [Instr.opcode] at h
  · rintro ⟨dev, data, m, rfl⟩
    rfl

end Sys2Proof

namespace Sys2Proof.Machine

variable {s t : State} {ag : Agent} {i : Instr} {fails : Bool}

/-! ## Bus calls -/

/-- The bus calls among the rows of the opcode map: two of the adapter's, and the typed accessors from 0x50 up (R164, R75). -/
theorem Opcode.makesBusCall_iff (o : Opcode) :
    Opcode.makesBusCall o = true ↔ o = .busWrite ∨ o = .busWriteThenRead ∨ 0x50 ≤ o.byte.toNat := by
  cases o <;> decide

/-- Only a bus call whose draw fails has the outcome TransportFailure (R246). -/
theorem busCall_fails_of_outcomeOf (h : outcomeOf (.cmd i) fails = .transportFailure) :
    Opcode.makesBusCall i.opcode = true ∧ fails = true := by
  by_cases hwf : i.WellFormed
  · rw [outcomeOf_wf hwf] at h
    split at h
    · contradiction
    · split at h
      · exact Bool.and_eq_true_iff.1 ‹_›
      · contradiction
  · rw [outcomeOf_not_wf hwf] at h
    contradiction

@[simp] theorem okState_agents (i : Instr) (s : State) : (okState i s).agents = s.agents := by
  unfold okState; split <;> simp
@[simp] theorem okState_turn (i : Instr) (s : State) : (okState i s).turn = s.turn := by
  unfold okState; split <;> simp
@[simp] theorem okState_fault (i : Instr) (s : State) : (okState i s).fault = s.fault := by
  unfold okState; split <;> simp
@[simp] theorem okState_refused (i : Instr) (s : State) : (okState i s).refused = s.refused := by
  unfold okState; split <;> simp

/-- A command that makes no bus call leaves the draws (R164; log 27). -/
theorem okState_transportDraws (hbus : Opcode.makesBusCall i.opcode = false) (s : State) :
    (okState i s).transportDraws = s.transportDraws := by
  simp [okState, hbus]

/-- `exec_next_cases` with the invoking agent given and the transport error's cause: the agent stopped, or the command is
a bus call whose draw failed and logged the transport error, or it completed with Ok. -/
theorem exec_next_inv (hag : s.agents[s.turn]? = some ag) (h : exec i s = .next t) :
    (∃ why, t = s.afterStop ag why) ∨
    ((Opcode.makesBusCall i.opcode = true ∧ s.transportFails = true) ∧
      t = s.dropDraw.afterResult ag (.err .transportFailure)) ∨
    ∃ v, t = (okState i s).afterResult ag (.ok v) := by
  have hspec := exec_spec i hag
  rw [h] at hspec
  split at hspec
  case h_1 => exact .inl ⟨_, Host.Outcome.next.inj hspec⟩
  case h_2 =>
    obtain ⟨dev, data, -, hnext⟩ := hspec
    exact .inl ⟨_, Host.Outcome.next.inj hnext⟩
  case h_3 houtcome =>
    exact .inr (.inl ⟨busCall_fails_of_outcomeOf houtcome, Host.Outcome.next.inj hspec⟩)
  case h_4 =>
    obtain ⟨v, hnext⟩ := hspec
    exact .inr (.inr ⟨v, Host.Outcome.next.inj hnext⟩)

/-- A command other than a bus call whose draw fails logs nothing or one Ok result, and leaves every other agent. -/
theorem exec_log (hag : s.agents[s.turn]? = some ag) (h : exec i s = .next t)
    (hfail : ¬ (Opcode.makesBusCall i.opcode = true ∧ s.transportFails = true)) :
    ∃ ag', t.agents = s.agents.set s.turn ag' ∧ (ag'.res = ag.res ∨ ∃ v, ag'.res = ag.res ++ [.ok v]) := by
  rcases exec_next_inv hag h with ⟨why, rfl⟩ | ⟨hfail', -⟩ | ⟨v, rfl⟩
  · exact ⟨_, State.afterStop_agents s ag why, .inl rfl⟩
  · exact absurd hfail' hfail
  · exact ⟨{ ag with pc := ag.pc + 1, res := ag.res ++ [.ok v] }, by simp, .inr ⟨v, rfl⟩⟩

/-- A command that makes no bus call takes no draw (R164; log 27). -/
theorem exec_transportDraws (hag : s.agents[s.turn]? = some ag) (h : exec i s = .next t)
    (hbus : Opcode.makesBusCall i.opcode = false) : t.transportDraws = s.transportDraws := by
  rcases exec_next_inv hag h with ⟨why, rfl⟩ | ⟨⟨hbus', -⟩, -⟩ | ⟨v, rfl⟩
  · exact State.afterStop_transportDraws s ag why
  · rw [hbus] at hbus'
    contradiction
  · exact okState_transportDraws hbus s

/-- Settles O37: a well-formed bus call begins with its draw, and no other outcome of a command logs an error. -/
theorem transportFailureIsAResult : Obligations.TransportFailureIsAResult := by
  intro i s ag hag hwf
  rw [← State.transportFails_iff]
  refine ⟨?busCalls, fun hbus hfail => ?fails, fun t h => ⟨exec_log hag h, exec_transportDraws hag h⟩⟩
  case busCalls =>
    rw [Opcode.makesBusCall_iff, Instr.opcode_eq_busWrite_iff, Instr.opcode_eq_busWriteThenRead_iff]
  case fails =>
    obtain ⟨v, hexec⟩ := exec_bus hwf hbus hag
    exact hexec.trans (if_pos hfail)

/-! ## The order of the checks -/

/-- Settles O40: the step runs the item at the chosen agent's `pc`, and each outcome's effect is read off the state it leaves. -/
theorem outcomeOrder : Obligations.OutcomeOrder := by
  intro s k ag c hk hag hc
  rw [step_of_chosen hk hag hc]
  have hspec := runFetched_spec (s := s.grant k) c hag
  rw [show (s.grant k).transportFails = s.transportDraws.headD false from rfl] at hspec
  generalize outcomeOf c (s.transportDraws.headD false) = outcome at hspec ⊢
  cases outcome with
  | refused =>
    obtain ⟨why, hrun⟩ := hspec
    exact ⟨_, hrun, why, by simp, by simp [Stop.isFault], by simp [Stop.isFault], by simp⟩
  | unimplemented =>
    obtain ⟨dev, data, -, hrun⟩ := hspec
    exact ⟨_, hrun, dev, by simp, by simp [Stop.isFault], by simp [Stop.isFault], by simp⟩
  | transportFailure => exact ⟨_, hspec, rfl, rfl, rfl, rfl⟩
  | ok =>
    obtain ⟨i, v, -, hrun⟩ := hspec
    exact ⟨_, hrun, ⟨v, by simp⟩, by simp, by simp⟩

end Sys2Proof.Machine
end

section
/-! PROOFS. The hazards between agents (70_reset section 3): reads in two calls can tear (R280), a configuration write can be lost
(R281), and writing back the configuration that was read normalises it (R282). -/

namespace Sys2Proof

/-! ## The programs of the hazards -/

theorem Instr.exists_of_opcode_setConfig {i : Instr} (h : i.opcode = .setConfig) :
    ∃ pm hyst outs pwmf sf fth wd, i = .setConfig pm hyst outs pwmf sf fth wd := by
  cases i with
  | setConfig pm hyst outs pwmf sf fth wd => exact ⟨pm, hyst, outs, pwmf, sf, fth, wd, rfl⟩
  | _ => simp [Instr.opcode] at h

theorem commands_encode_setConfig (pm hyst outs pwmf sf fth wd : Byte) :
    commands (encode (.setConfig pm hyst outs pwmf sf fth wd)) = [.cmd (.setConfig pm hyst outs pwmf sf fth wd)] :=
  commands_of_cmd (rest := []) (decode_byte .setConfig _)

theorem commands_encode_getConfig_append (rest : List Byte) :
    commands (encode .getConfig ++ rest) = .cmd .getConfig :: commands rest :=
  commands_of_cmd (decode_byte .getConfig _)

theorem commands_encode_setRawAngle (v : U16) : commands (encode (.setRawAngle v)) = [.cmd (.setRawAngle v)] :=
  have hv : v.toNat = (hi8 v).toNat * 256 + (lo8 v).toNat := by rw [← be16_toNat, be16_hi8_lo8]
  commands_of_cmd (decode_FV (o := .setRawAngle) rfl hv [])

end Sys2Proof

namespace Sys2Proof.Machine

variable {s t u : State} {ag ag' : Agent} {i : Instr} {k n a : Nat} {pm hyst outs pwmf sf fth wd : Byte} {c : Configuration}

/-! ## Turns -/

/-- A run whose schedule names agent `k` first goes on from what the meaning of that agent's command leaves. -/
theorem State.reaches_of_turn {sch : List Nat} (hs : s.schedule = k :: sch) (hag : s.agents[k]? = some ag)
    (hh : ag.halted = false) (hc : ag.commands[ag.pc]? = some (.cmd i)) (hexec : exec i (s.grant k) = .next u)
    (hr : State.Reaches n u t) : State.Reaches (n + 1) s t := by
  have ha : s.allowed k = true :=
    State.allowed_iff.2 ⟨ag, hag, Agent.allowed_iff.2 ⟨hh, (List.getElem?_eq_some_iff.1 hc).1⟩⟩
  exact State.reaches_of_step ((step_of_chosen (State.chosen_of_schedule hs ha) hag hc).trans hexec) hr

theorem State.reaches_refl (s : State) : State.Reaches 0 s s := rfl

theorem Memory.nil_wf (g : Byte) : Memory.wf g [] := ⟨.nil, List.forall_mem_nil _⟩

/-- A pair stored inside the array is there. -/
theorem State.byteAt_writeBytes_pair (hm : Memory.wf s.params.defaultGain s.mem) (ha : a + 1 ≤ 255) (hi lo : Byte) :
    (s.writeBytes a [hi, lo]).byteAt a = hi ∧ (s.writeBytes a [hi, lo]).byteAt (a + 1) = lo := by
  have hbytes := (s.stored_writeBytes hm a [hi, lo]).2
  constructor
  · simp [hbytes, show a ≤ 255 by omega]
  · simp [hbytes, ha]

/-- A read of one byte logs it. -/
theorem exec_rfRead_one (hag : s.agents[s.turn]? = some ag) {start : Byte} (ha : start.toNat = a) :
    exec (.rfRead start 1) s = .next (s.afterResult ag (.ok (.bytes [s.byteAt a]))) :=
  ha ▸ exec_rfRead hag start 1

/-- SET_RAW_ANGLE stores the masked value's two bytes. -/
theorem exec_setRawAngle (hag : s.agents[s.turn]? = some ag) (v : U16) :
    exec (.setRawAngle v) s = .next ((s.writeBytes 0x0C (encodeU12 v)).afterResult ag (.ok .unit)) :=
  controlUpdate_eq hag .rawAngle (encodeU12 v)

/-- GET_CONFIG logs the transport error, or the configuration that the register's pair decodes to. -/
theorem exec_getConfig (hag : s.agents[s.turn]? = some ag) : exec .getConfig s =
    if s.transportFails then .next (s.dropDraw.afterResult ag (.err .transportFailure))
    else .next (s.dropDraw.afterResult ag
      (.ok (.config (decodeConfiguration s.params.fieldCodes (s.byteAt 0x07) (s.byteAt 0x08))))) :=
  getter_eq hag .configuration _

/-- Where the draw does not fail, SET_CONFIG that passes its checks stores the encoded pair of its operands. -/
theorem exec_setConfig_ok (hwf : (Instr.setConfig pm hyst outs pwmf sf fth wd).WellFormed)
    (hok : s.transportFails = false) (hag : s.agents[s.turn]? = some ag) :
    exec (.setConfig pm hyst outs pwmf sf fth wd) s = .next ((s.dropDraw.writeBytes 0x07
      (encodeConfiguration s.params.fieldCodes (configOperands s.params.fieldCodes pm hyst outs pwmf sf fth wd))).afterResult
        ag (.ok .unit)) := by
  rw [exec_setConfig hwf, setter_eq hag, hok]
  rfl

/-! ## Torn reads -/

/-- Settles O50: the reader's first turn gives the reset byte at 0x0C, and its second, after the update, the new byte at 0x0D. -/
theorem readsAcrossCallsCanTear : Obligations.ReadsAcrossCallsCanTear := by
  intro p v sch draws
  have hwriter := commands_encode_setRawAngle v
  have hreader : commands (encode (.rfRead 0x0C 1) ++ encode (.rfRead 0x0D 1)) =
      [.cmd (.rfRead 0x0C 1), .cmd (.rfRead 0x0D 1)] := by decide
  refine ⟨_, State.reaches_of_turn rfl rfl rfl (congrArg (·[0]?) hreader) (exec_rfRead_one (a := 0x0C) rfl rfl) <|
    State.reaches_of_turn rfl rfl rfl (congrArg (·[0]?) hwriter) (exec_setRawAngle rfl v) <|
    State.reaches_of_turn rfl rfl rfl (congrArg (·[1]?) hreader) (exec_rfRead_one (a := 0x0D) rfl rfl) <|
    State.reaches_refl _, ?_⟩
  have hlow {s : State} (hm : Memory.wf s.params.defaultGain s.mem) :
      (s.writeBytes 0x0C (encodeU12 v)).byteAt 0x0D = BitVec.ofNat 8 (v.toNat % 256) := by
    rw [encodeU12_eq]
    exact (State.byteAt_writeBytes_pair hm (by decide) _ _).2
  change [[Result.ok .unit], [.ok (.bytes [_]), .ok (.bytes [_])]] = _
  rw [State.byteAt_grant, State.session_byteAt, State.byteAt_grant, State.byteAt_afterResult, hlow (Memory.nil_wf _)]
  rfl

/-! ## A lost configuration write -/

/-- The configuration bytes after a SET_CONFIG in range has stored its pair: the operands at the places of R32. -/
theorem State.byteAt_writeBytes_config {codes : FieldCodes} (hcodes : codes.Bijective)
    (hwf : (Instr.setConfig pm hyst outs pwmf sf fth wd).WellFormed) (hm : Memory.wf s.params.defaultGain s.mem) :
    let u := s.writeBytes 0x07 (encodeConfiguration codes (configOperands codes pm hyst outs pwmf sf fth wd))
    u.byteAt 0x07 = BitVec.ofNat 8 (32 * wd.toNat + 4 * fth.toNat + sf.toNat) ∧
      u.byteAt 0x08 = BitVec.ofNat 8 (64 * pwmf.toNat + 16 * outs.toNat + 4 * hyst.toNat + pm.toNat) := by
  rw [encodeConfiguration_operands_eq codes hcodes ((configChecks_eq_nil ..).1 hwf)]
  exact State.byteAt_writeBytes_pair hm (by decide) _ _

/-- Settles O51: agent 0's SET_CONFIG stores its pair over whatever agent 1 stored between. -/
theorem configUpdateCanBeLost : Obligations.ConfigUpdateCanBeLost := by
  intro p i j sch ht hi hj hiop hjop
  obtain ⟨pm, hyst, outs, pwmf, sf, fth, wd, rfl⟩ := Instr.exists_of_opcode_setConfig hiop
  obtain ⟨pm', hyst', outs', pwmf', sf', fth', wd', rfl⟩ := Instr.exists_of_opcode_setConfig hjop
  have hfirst : commands (encode .getConfig ++ encode (.setConfig pm hyst outs pwmf sf fth wd)) =
      [.cmd .getConfig, .cmd (.setConfig pm hyst outs pwmf sf fth wd)] := by
    rw [commands_encode_getConfig_append, commands_encode_setConfig]
  have hsecond := commands_encode_setConfig pm' hyst' outs' pwmf' sf' fth' wd'
  refine ⟨_, State.reaches_of_turn rfl rfl rfl (congrArg (·[0]?) hfirst) (exec_getConfig rfl) <|
    State.reaches_of_turn rfl rfl rfl (congrArg (·[0]?) hsecond) (exec_setConfig_ok hj rfl rfl) <|
    State.reaches_of_turn rfl rfl rfl (congrArg (·[1]?) hfirst) (exec_setConfig_ok hi rfl rfl) <|
    State.reaches_refl _, fun _ _ _ _ _ _ _ heq => ?bytes, rfl⟩
  case bytes =>
    cases heq
    rw [State.byteAt_afterResult, State.byteAt_afterResult]
    exact State.byteAt_writeBytes_config ht hi (Memory.writeList_wf _ (Memory.nil_wf _))

/-! ## A configuration written back -/

/-- The result by which the invoking agent's log has grown is the one its command completed with. -/
theorem State.afterResult_result_eq {r r' : Result} (hag : s.agents[s.turn]? = some ag)
    (hag' : (s.afterResult ag r).agents[(s.afterResult ag r).turn]? = some ag') (hres : ag'.res = ag.res ++ [r']) :
    r = r' := by
  rw [State.afterResult_agents, State.afterResult_turn,
    List.getElem?_set_self (List.getElem?_eq_some_iff.1 hag).1] at hag'
  obtain rfl := Option.some.inj hag'
  simpa using hres

/-- GET_CONFIG that logged a configuration logged the one that the register's pair decodes to. -/
theorem exec_getConfig_inv (hag : s.agents[s.turn]? = some ag) (h : exec .getConfig s = .next u)
    (hag' : u.agents[u.turn]? = some ag') (hres : ag'.res = ag.res ++ [.ok (.config c)]) :
    c = decodeConfiguration s.params.fieldCodes (s.byteAt 0x07) (s.byteAt 0x08) ∧
      u = s.dropDraw.afterResult ag (.ok (.config c)) := by
  rw [exec_getConfig hag] at h
  split at h <;> obtain rfl := Host.Outcome.next.inj h <;>
    have hlogged := State.afterResult_result_eq (s := s.dropDraw) hag hag' hres
  · contradiction
  · obtain rfl := Value.config.inj (Result.ok.inj hlogged)
    exact ⟨rfl, rfl⟩

/-- Settles O52: what is written back is the encoding of the decoded pair, which is the pair normalised. -/
theorem writeBackNormalises : Obligations.WriteBackNormalises := by
  intro pm hyst outs pwmf sf fth wd s u t ag ag' c hm ht hag hget hag' hres hwf hc hok hset
  obtain ⟨hdecoded, rfl⟩ := exec_getConfig_inv hag hget hag' hres
  rw [exec_setConfig_ok hwf (State.transportFails_eq_false_iff.2 hok) hag', State.afterResult_params,
    State.dropDraw_params, hc, hdecoded, encode_decodeConfiguration ht] at hset
  obtain rfl := Host.Outcome.next.inj hset
  exact State.byteAt_writeBytes_pair (s := s) hm (by decide) _ _

end Sys2Proof.Machine
end

section
/-! PROOFS. The encoding and the decoder (30_encoding R71, R72, R81): a stream is read as a command exactly where it begins with the
command's encoding, so the two are inverse; and a program's bytes are read as its commands. -/

namespace Sys2Proof

variable {bs rest : List Byte} {i : Instr}

/-! ## What each format reads

A format's bytes are read as a command exactly where they begin with the operands' bytes in the format's layout (R72). -/

theorem parseF1_eq_cmd_iff {mk : Byte → Instr} : parseF1 mk bs = .cmd i rest ↔ ∃ b, mk b = i ∧ bs = b :: rest := by
  constructor
  · intro h
    unfold parseF1 at h
    split at h <;> cases h
    exact ⟨_, rfl, rfl⟩
  · rintro ⟨b, rfl, rfl⟩
    rfl

theorem parseF2_eq_cmd_iff {mk : Byte → Byte → Instr} :
    parseF2 mk bs = .cmd i rest ↔ ∃ hi lo, mk hi lo = i ∧ bs = hi :: lo :: rest := by
  constructor
  · intro h
    unfold parseF2 at h
    split at h <;> cases h
    exact ⟨_, _, rfl, rfl⟩
  · rintro ⟨hi, lo, rfl, rfl⟩
    rfl

@[simp] theorem bytes16_be16 (hi lo : Byte) : bytes16 (be16 hi lo) = [hi, lo] := by
  rw [bytes16, hi8_be16, lo8_be16]

theorem parseFV_eq_cmd_iff {mk : U16 → Instr} :
    parseFV mk bs = .cmd i rest ↔ ∃ v, mk v = i ∧ bs = bytes16 v ++ rest := by
  constructor
  · intro h
    unfold parseFV at h
    split at h <;> cases h
    exact ⟨_, rfl, by rw [bytes16_be16]; rfl⟩
  · rintro ⟨v, rfl, rfl⟩
    exact congrArg (fun w => Verdict.cmd (mk w) rest) (be16_hi8_lo8 v)

theorem parseFS_eq_cmd_iff {mk : Byte → Byte → Byte → Instr} :
    parseFS mk bs = .cmd i rest ↔ ∃ d w st, mk d w st = i ∧ bs = d :: w :: st :: rest := by
  constructor
  · intro h
    unfold parseFS at h
    split at h <;> cases h
    exact ⟨_, _, _, rfl, rfl⟩
  · rintro ⟨d, w, st, rfl, rfl⟩
    rfl

theorem parseFC_eq_cmd_iff {mk : Byte → Byte → Byte → Byte → Byte → Byte → Byte → Instr} :
    parseFC mk bs = .cmd i rest ↔ ∃ pm hyst outs pwmf sf fth wd, mk pm hyst outs pwmf sf fth wd = i ∧
      bs = pm :: hyst :: outs :: pwmf :: sf :: fth :: wd :: rest := by
  constructor
  · intro h
    unfold parseFC at h
    split at h <;> cases h
    exact ⟨_, _, _, _, _, _, _, rfl, rfl⟩
  · rintro ⟨pm, hyst, outs, pwmf, sf, fth, wd, rfl, rfl⟩
    rfl

theorem parseFRR_eq_cmd_iff {mk : Byte → U16 → Instr} :
    parseFRR mk bs = .cmd i rest ↔ ∃ start count, mk start count = i ∧ bs = start :: bytes16 count ++ rest := by
  constructor
  · intro h
    unfold parseFRR at h
    split at h <;> cases h
    exact ⟨_, _, rfl, by rw [bytes16_be16]; rfl⟩
  · rintro ⟨start, count, rfl, rfl⟩
    exact congrArg (fun w => Verdict.cmd (mk start w) rest) (be16_hi8_lo8 count)

/-- The data list that a length field announces has that length field, where the stream is long enough. -/
theorem n16_take {nh nl : Byte} (h : (be16 nh nl).toNat ≤ bs.length) : n16 (bs.take (be16 nh nl).toNat) = [nh, nl] := by
  rw [n16, List.length_take_of_le h, BitVec.ofNat_toNat, BitVec.setWidth_eq, bytes16_be16]

/-- The number in the length field of a list that fits it. -/
theorem n16_toNat {data : List Byte} (h : data.length ≤ Config.maxLen) :
    (be16 (hi8 (BitVec.ofNat 16 data.length)) (lo8 (BitVec.ofNat 16 data.length))).toNat = data.length := by
  rw [be16_hi8_lo8, length_n16 h]

theorem parseBlock_eq_cmd_iff {mk : Byte → List Byte → Instr} : parseBlock mk bs = .cmd i rest ↔
    ∃ b data, data.length ≤ Config.maxLen ∧ mk b data = i ∧ bs = b :: n16 data ++ data ++ rest := by
  constructor
  · intro h
    unfold parseBlock at h
    split at h
    · dsimp only at h
      split at h <;> cases h
      refine ⟨_, _, length_take_be16_le .., rfl, ?_⟩
      rw [n16_take ‹_›, List.append_assoc, List.take_append_drop]
      rfl
    · cases h
  · rintro ⟨b, data, hfits, rfl, rfl⟩
    exact parseBlock_data ((be16_toNat ..).symm.trans (n16_toNat hfits)) mk b rest

theorem parseFBWR_eq_cmd_iff {mk : Byte → List Byte → U16 → Instr} : parseFBWR mk bs = .cmd i rest ↔
    ∃ dev data m, data.length ≤ Config.maxLen ∧ mk dev data m = i ∧
      bs = dev :: n16 data ++ data ++ bytes16 m ++ rest := by
  constructor
  · intro h
    unfold parseFBWR at h
    split at h
    · rename_i dev nh nl operands
      dsimp only at h
      split at h <;> cases h
      rename_i mh ml hdrop
      refine ⟨_, _, _, length_take_be16_le .., rfl, ?_⟩
      have hlength : (be16 nh nl).toNat ≤ operands.length := by
        have := congrArg List.length hdrop
        simp only [List.length_drop, List.length_cons] at this
        omega
      calc dev :: nh :: nl :: operands
        _ = dev :: nh :: nl :: (operands.take (be16 nh nl).toNat ++ mh :: ml :: rest) := by
          rw [← hdrop, List.take_append_drop]
        _ = _ := by rw [n16_take hlength, bytes16_be16, List.append_assoc, List.append_assoc]; rfl
    · cases h
  · rintro ⟨dev, data, m, hfits, rfl, rfl⟩
    simp [parseFBWR, n16, bytes16, length_n16 hfits]

/-! ## Decoding and encoding -/

/-- The operands of an operation are read as exactly the commands of that operation whose operand bytes they begin with. -/
theorem parseOperands_eq_cmd_iff {o : Opcode} :
    parseOperands o bs = .cmd i rest ↔ i.opcode = o ∧ i.DataFits ∧ bs = operandBytes i ++ rest := by
  constructor
  · intro h
    cases o with
    | decodeStatus | decodeBurnCount | setGain =>
      obtain ⟨b, rfl, rfl⟩ := parseF1_eq_cmd_iff.1 h
      exact ⟨rfl, trivial, rfl⟩
    | decodeU12 | decodeConfig =>
      obtain ⟨hi, lo, rfl, rfl⟩ := parseF2_eq_cmd_iff.1 h
      exact ⟨rfl, trivial, rfl⟩
    | encodeU12 | setRawAngle | setMagnitude | setZeroPosition | setMaxPosition | setMaxAngle =>
      obtain ⟨v, rfl, rfl⟩ := parseFV_eq_cmd_iff.1 h
      exact ⟨rfl, trivial, rfl⟩
    | encodeStatus | setStatus =>
      obtain ⟨d, w, st, rfl, rfl⟩ := parseFS_eq_cmd_iff.1 h
      exact ⟨rfl, trivial, rfl⟩
    | encodeConfig | setConfig =>
      obtain ⟨pm, hyst, outs, pwmf, sf, fth, wd, rfl, rfl⟩ := parseFC_eq_cmd_iff.1 h
      exact ⟨rfl, trivial, rfl⟩
    | rfRead =>
      obtain ⟨start, count, rfl, rfl⟩ := parseFRR_eq_cmd_iff.1 h
      exact ⟨rfl, trivial, rfl⟩
    | rfWrite | busWrite | busTransaction =>
      obtain ⟨b, data, hfits, rfl, rfl⟩ := parseBlock_eq_cmd_iff.1 h
      exact ⟨rfl, hfits, rfl⟩
    | busWriteThenRead =>
      obtain ⟨dev, data, m, hfits, rfl, rfl⟩ := parseFBWR_eq_cmd_iff.1 h
      exact ⟨rfl, hfits, rfl⟩
    | getBurnCount | getZeroPosition | getMaxPosition | getMaxAngle | getConfig | getStatus | getRawAngle | getAngle
    | getGain | getMagnitude | commitAngle | commitSettings =>
      cases h
      exact ⟨rfl, trivial, rfl⟩
  · rintro ⟨rfl, hfits, rfl⟩
    cases i with
    | encodeU12 v | setRawAngle v | setMagnitude v | setZeroPosition v | setMaxPosition v | setMaxAngle v =>
      exact parseFV_eq_cmd_iff.2 ⟨v, rfl, rfl⟩
    | rfRead start count => exact parseFRR_eq_cmd_iff.2 ⟨start, count, rfl, rfl⟩
    | rfWrite b data | busWrite b data | busTransaction b data =>
      exact parseBlock_eq_cmd_iff.2 ⟨b, data, hfits, rfl, rfl⟩
    | busWriteThenRead dev data m => exact parseFBWR_eq_cmd_iff.2 ⟨dev, data, m, hfits, rfl, rfl⟩
    | _ => rfl

/-- The row that a byte selects is that of its own operation (R75). -/
theorem byte_of_row {b : Byte} {r : OpcodeRow} (h : rowOfByte b = some r) : r.op.byte = b := by
  have hmap : ∀ r ∈ opcodeMap, r.op.byte = r.byte := by decide
  have hbyte : (r.byte == b) = true := List.find?_some (p := fun r : OpcodeRow => r.byte == b) h
  rw [hmap r (List.mem_of_find?_eq_some h), eq_of_beq hbyte]

/-- A stream is read as exactly the command whose encoding it begins with (R81). -/
theorem decode_eq_cmd_iff {stream : List Byte} :
    decode stream = .cmd i rest ↔ i.DataFits ∧ stream = encode i ++ rest := by
  constructor
  · intro h
    obtain ⟨b, operands, r, rfl, hrow, hparse⟩ := decode_eq_cmd h
    obtain ⟨hop, hfits, rfl⟩ := parseOperands_eq_cmd_iff.1 hparse
    exact ⟨hfits, by rw [encode, hop, byte_of_row hrow]; rfl⟩
  · rintro ⟨hfits, rfl⟩
    exact (decode_byte i.opcode _).trans (parseOperands_eq_cmd_iff.2 ⟨rfl, hfits, rfl⟩)

/-- The length check of R7 is among the checks of every command with a data list. -/
theorem Instr.WellFormed.dataFits (h : i.WellFormed) : i.DataFits := by
  cases i with
  | rfWrite start data => exact lenChecks_eq_nil.1 h
  | busWrite dev data | busTransaction dev data | busWriteThenRead dev data m =>
    exact lenChecks_eq_nil.1 (List.append_eq_nil_iff.1 h).2
  | _ => trivial

/-- Settles O1: a well-formed command's data list fits its length field, and nothing else can be lost. -/
theorem decodeOfEncode : Obligations.DecodeOfEncode :=
  fun _ _ hwf => decode_eq_cmd_iff.2 ⟨hwf.dataFits, rfl⟩

/-- Settles O2: the decoder reads a command only where the stream begins with the command's encoding. -/
theorem encodeOfDecode : Obligations.EncodeOfDecode :=
  fun _ _ _ h => (decode_eq_cmd_iff.1 h).2.symm

/-- Settles O6: each word's byte 0 selects its row, and the operands are joined from the bytes after it. -/
theorem sampleWordsDecode : Obligations.SampleWordsDecode :=
  ⟨rfl, rfl, rfl, rfl, rfl, rfl, rfl, rfl, rfl, rfl, rfl⟩

/-! ## Programs -/

/-- Encoded commands at the front of a stream are read first, and then the rest of the stream. -/
theorem commands_flatMap_encode_append {prog : List Instr} (hwf : ∀ i ∈ prog, i.WellFormed) (bytes : List Byte) :
    commands (prog.flatMap encode ++ bytes) = prog.map Fetched.cmd ++ commands bytes := by
  induction prog with
  | nil => rfl
  | cons i prog ih =>
    obtain ⟨hi, hprog⟩ := List.forall_mem_cons.1 hwf
    rw [List.flatMap_cons, List.append_assoc, commands_of_cmd (decodeOfEncode i _ hi), ih hprog]
    rfl

/-- Settles O3: the commands of the program, and then those of the empty stream. -/
theorem programBytesAreCommands : Obligations.ProgramBytesAreCommands := by
  intro prog hwf
  simpa using commands_flatMap_encode_append hwf []

end Sys2Proof
end

section
/-! PROOFS. The written form of commands (30_encoding R79): each operand is read back from the text it is written as, and each
mnemonic names its operation, so a written command is assembled to itself. -/

namespace Sys2Proof.Machine

/-- A mnemonic names its operation. -/
@[simp] theorem opcodeOfMnemonic_mnemonic (o : Opcode) : opcodeOfMnemonic (Opcode.mnemonic o) = some o := by
  cases o <;> decide

/-! ## Operands -/

@[simp] theorem asBits_number {w : Nat} (b : BitVec w) : asBits w (.number b.toNat) = some b := by
  rw [asBits, if_pos b.isLt, BitVec.ofNat_toNat, BitVec.setWidth_eq]

@[simp] theorem asBits_numberText {w : Nat} (b : BitVec w) : asBits w (numberText b) = some b := asBits_number b

@[simp] theorem asList_byteList (bs : List Byte) : asList (.byteList bs) = some bs := rfl

@[simp] theorem asBool_boolText (b : Byte) : asBool (boolText b) = some b := by
  unfold boolText
  split_ifs with hfalse htrue
  · rw [hfalse]; rfl
  · rw [htrue]; rfl
  · exact asBits_number b

/-- Among names without repeats a name is found at its own place. -/
theorem asCode_variantText {names : List String} (h : names.Nodup) (code : Byte) :
    asCode names (variantText names code) = some code := by
  unfold variantText
  cases hname : names[code.toNat]? with
  | none => exact asBits_number code
  | some name =>
    obtain ⟨hlt, rfl⟩ := List.getElem?_eq_some_iff.1 hname
    simp [asCode, h.idxOf_getElem]

/-! ## Variant names -/

/-- Where the names of a field's variants (`variants` lists them) have no repeats, no two variants share a name. -/
theorem name_injective_of_nodup {α : Type} {name : α → String} (variants : List α) (hall : ∀ x, x ∈ variants)
    (hnames : (variants.map name).Nodup) : Function.Injective name :=
  fun x y => List.inj_on_of_nodup_map hnames (hall x) (hall y)

theorem PowerMode.name_injective : Function.Injective PowerMode.name :=
  name_injective_of_nodup [.NOM, .LPM1, .LPM2, .LPM3] (fun x => by cases x <;> simp) (by decide)

theorem Hysteresis.name_injective : Function.Injective Hysteresis.name :=
  name_injective_of_nodup [.Off, .Lsb1, .Lsb2, .Lsb3] (fun x => by cases x <;> simp) (by decide)

theorem OutputStage.name_injective : Function.Injective OutputStage.name :=
  name_injective_of_nodup [.AnalogFull, .AnalogReduced, .PWM] (fun x => by cases x <;> simp) (by decide)

theorem PwmFrequency.name_injective : Function.Injective PwmFrequency.name :=
  name_injective_of_nodup [.Hz115, .Hz230, .Hz460, .Hz920] (fun x => by cases x <;> simp) (by decide)

theorem SlowFilter.name_injective : Function.Injective SlowFilter.name :=
  name_injective_of_nodup [.X16, .X8, .X4, .X2] (fun x => by cases x <;> simp) (by decide)

theorem FastFilterThreshold.name_injective : Function.Injective FastFilterThreshold.name :=
  name_injective_of_nodup [.SlowOnly, .Lsb6, .Lsb7, .Lsb9, .Lsb18, .Lsb21, .Lsb24, .Lsb10] (fun x => by cases x <;> simp) (by decide)

/-- A variant's code is read back from its name, in a table without repeats whose variants have names of their own. -/
theorem asCode_tableNames {α : Type} {n : Nat} {name : α → String} (hname : Function.Injective name) {t : Vector α n}
    (ht : t.toList.Nodup) (code : Byte) :
    asCode (tableNames name t) (variantText (tableNames name t) code) = some code :=
  asCode_variantText (ht.map hname) code

/-! ## Commands -/

@[simp] theorem asmStatus_boolText (mk : Byte → Byte → Byte → Instr) (d w st : Byte) :
    asmStatus mk [boolText d, boolText w, boolText st] = some (mk d w st) := by
  simp [asmStatus]

/-- The seven operands of a configuration are read back under every bijective FIELD_CODES. -/
theorem asmConfig_configText {t : FieldCodes} (ht : t.Bijective)
    (mk : Byte → Byte → Byte → Byte → Byte → Byte → Byte → Instr) (pm hyst outs pwmf sf fth wd : Byte) :
    asmConfig t mk (configText t pm hyst outs pwmf sf fth wd) = some (mk pm hyst outs pwmf sf fth wd) := by
  obtain ⟨hpm, hhyst, houts, hpwmf, hsf, hfth⟩ := ht
  simp [asmConfig, configText, asCode_tableNames PowerMode.name_injective hpm,
    asCode_tableNames Hysteresis.name_injective hhyst, asCode_tableNames OutputStage.name_injective houts,
    asCode_tableNames PwmFrequency.name_injective hpwmf, asCode_tableNames SlowFilter.name_injective hsf,
    asCode_tableNames FastFilterThreshold.name_injective hfth]

/-- The written operands of a command are read back as the command. -/
theorem assembleOperands_operandText {t : FieldCodes} (ht : t.Bijective) (i : Instr) :
    assembleOperands t i.opcode (operandText t i) = some i := by
  cases i with
  | encodeStatus d w st | setStatus d w st => exact asmStatus_boolText _ d w st
  | encodeConfig pm hyst outs pwmf sf fth wd | setConfig pm hyst outs pwmf sf fth wd =>
    exact asmConfig_configText ht _ pm hyst outs pwmf sf fth wd
  | encodeU12 | decodeStatus | decodeBurnCount | setRawAngle | setGain | setMagnitude | setZeroPosition | setMaxPosition
  | setMaxAngle => simp [Instr.opcode, operandText, assembleOperands, asm1]
  | decodeU12 | decodeConfig | rfRead => simp [Instr.opcode, operandText, assembleOperands, asm2]
  | rfWrite | busWrite | busTransaction => simp [Instr.opcode, operandText, assembleOperands, asmBlock]
  | busWriteThenRead => simp [Instr.opcode, operandText, assembleOperands, asmBusRead]
  | _ => rfl

/-- Settles O7: the mnemonic names the operation, whose operands are read back. -/
theorem assembleOfDisassemble : Obligations.AssembleOfDisassemble := by
  intro t i ht
  simp [assemble, disassemble, assembleOperands_operandText ht]

end Sys2Proof.Machine
end

section
/-! PROOFS. Writes of the same bytes (20_memory R56): a byte list stored a second time leaves the array as the first store left it. -/

namespace Sys2Proof.Machine

variable {s t : State}

/-- Storing a byte list again changes no byte of the array, and so not its canonical form either. -/
theorem Memory.writeList_writeList {g : Byte} {m : List Host.Cell} (h : Memory.wf g m) (a : Nat) (bs : List Byte) :
    Memory.writeList g (Memory.writeList g m a bs) a bs = Memory.writeList g m a bs := by
  have honce : Memory.wf g (Memory.writeList g m a bs) := Memory.writeList_wf bs h
  refine Memory.eq_of_read_eq (Memory.writeList_wf bs honce) honce fun x hx => ?_
  rw [Memory.read_writeList bs honce hx, Memory.read_writeList bs h hx]
  split_ifs <;> rfl

/-- RF_WRITE that passes its check and completes has stored its bytes, and no parameter is changed. -/
theorem exec_rfWrite_next {start : Byte} {data : List Byte} (hwf : (Instr.rfWrite start data).WellFormed)
    (h : exec (.rfWrite start data) s = .next t) :
    t.params = s.params ∧ t.mem = Memory.writeList s.params.defaultGain s.mem start.toNat data := by
  cases hag : s.agents[s.turn]? with
  | none => rw [exec_no_agent _ hag] at h; contradiction
  | some ag =>
    rw [exec_rfWrite (lenChecks_eq_nil.1 hwf) hag] at h
    obtain rfl := Host.Outcome.next.inj h
    exact ⟨rfl, rfl⟩

/-- Settles O21: the second RF_WRITE stores the same list at the same place, under the same reset bytes. -/
theorem rfWriteIdempotent : Obligations.RfWriteIdempotent := by
  intro start data s t u hm hwf hfirst hsecond
  obtain ⟨hparams, hmem⟩ := exec_rfWrite_next hwf hfirst
  obtain ⟨-, hmem'⟩ := exec_rfWrite_next hwf hsecond
  rw [hmem', hparams, hmem, Memory.writeList_writeList hm]

end Sys2Proof.Machine
end

section
/-! PROOFS. The scheduler and the step (20_memory R58, 60_exceptions R240, R252, R255): which agent a step is of, when there is no
step, and what a step leaves unchanged. -/

namespace Sys2Proof.Machine

variable {s t : State} {ag : Agent} {k : Nat}

/-! ## Which agent moves -/

/-- The state in which the agent named by the schedule runs its item. -/
theorem State.grant_of_schedule {sch : List Nat} (h : s.schedule = k :: sch) :
    s.grant k = { s with turn := k, schedule := sch } := by
  simp [State.grant, h]

/-- Settles O38: the program's commands are those before the `pc`, and then the decoded one. -/
theorem stepRunsDecodedCommand : Obligations.StepRunsDecodedCommand := by
  intro s k sch ag before bytes rest i hs hag hhalted hwf hprog hpc hdecode
  have hcommands : ag.commands = before.map Fetched.cmd ++ .cmd i :: commands rest := by
    rw [Agent.commands, hprog, commands_flatMap_encode_append hwf, commands_of_cmd hdecode]
  have hitem : ag.commands[ag.pc]? = some (.cmd i) := by
    rw [hcommands, hpc, List.getElem?_append_right (by simp)]
    simp
  exact step_of_cmd hs hag hhalted hitem

/-- Settles O39: an allowed agent at the schedule's head is chosen, and the run has not ended while one is allowed. -/
theorem anyAllowedAgentMayMove : Obligations.AnyAllowedAgentMayMove := by
  intro s k ag hag hhalted hpc
  have hallowed : ag.allowed = true := Agent.allowed_iff.2 ⟨hhalted, hpc⟩
  constructor
  · intro sch
    obtain ⟨c, hc⟩ := Agent.item_of_allowed hallowed
    have hchosen : State.chosen { s with schedule := k :: sch } = some k :=
      State.chosen_of_schedule rfl (State.allowed_iff.2 ⟨ag, hag, hallowed⟩)
    exact ⟨c, hc, (step_of_chosen hchosen hag hc).trans (congrArg _ (State.grant_of_schedule rfl))⟩
  · rcases step_cases s with ⟨hended, -⟩ | ⟨j, aj, c, -, haj, hmoves, hc, hstep⟩
    · exact absurd hallowed (by simp [hended ag (List.mem_of_getElem? hag)])
    · exact ⟨j, aj, c, haj, (Agent.allowed_iff.1 hmoves).1, hc, hstep⟩

/-! ## The end of a run -/

/-- An agent that is not allowed has halted or stands at the end of its list (R240). -/
theorem Agent.allowed_eq_false_iff : ag.allowed = false ↔ ag.halted = true ∨ ag.commands.length ≤ ag.pc := by
  rw [← Bool.not_eq_true, Agent.allowed_iff, not_and_or, Bool.not_eq_false, Nat.not_lt]

/-- There is a step exactly until the run has ended: an allowed agent's item always has an outcome (R246). -/
theorem step_ended_or_next (s : State) :
    (s.Ended ∧ step s = .refused .noAllowedStep) ∨ (¬ s.Ended ∧ ∃ t, step s = .next t) := by
  rcases step_cases s with hended | ⟨k, ag, c, hk, hag, hallowed, hc, -⟩
  · exact .inl hended
  · obtain ⟨t, ht, -⟩ := outcomeOrder s k ag c hk hag hc
    exact .inr ⟨fun hended => by simp [hended ag (List.mem_of_getElem? hag)] at hallowed, t, ht⟩

/-- Settles O41: an ended run has no step, and any other has a next state. -/
theorem runEndsWhenNoAgentAllowed : Obligations.RunEndsWhenNoAgentAllowed := by
  intro s
  simp only [← Agent.allowed_eq_false_iff]
  rcases step_ended_or_next s with ⟨hended, hstep⟩ | ⟨hmoves, t, hstep⟩ <;> rw [hstep]
  · exact ⟨iff_of_true hended (by simp), by simp⟩
  · exact ⟨iff_of_false hmoves fun h => h t rfl, by simp⟩

/-! ## What a step leaves -/

/-- Settles O42: a step replaces one agent by itself with one result more, or halted. -/
theorem stepChangesOnlyItsAgent : Obligations.StepChangesOnlyItsAgent := by
  intro s t h
  obtain ⟨k, ag, ag', c, hk, hag, -, -, hparams, hturn, hagents, -, hcase⟩ := step_changes h
  have hlt : k < s.agents.length := (List.getElem?_eq_some_iff.1 hag).1
  have hkept : ag'.prog = ag.prog ∧ (ag'.res = ag.res ∨ ∃ r, ag'.res = ag.res ++ [r]) := by
    rcases hcase with ⟨r, rfl, -⟩ | ⟨w, rfl, -⟩
    · exact ⟨rfl, .inr ⟨r, rfl⟩⟩
    · exact ⟨rfl, .inl rfl⟩
  rw [hagents]
  exact ⟨hparams, List.length_set, k, hk, hturn, fun j hj => List.getElem?_set_ne hj.symm, ag, ag', hag,
    List.getElem?_set_self hlt, hkept⟩

end Sys2Proof.Machine
end

section
/-! PROOFS. The invariant of the machine's states (10_state R28, R30, 60_exceptions R241, R244, R247): it holds at the start of a
session, every step keeps it, and where it holds a run ends well exactly when no mark is raised (R255). -/

namespace Sys2Proof.Machine

variable {ag : Agent}

/-! ## Agents -/

theorem Agent.start_inv (prog : List Byte) : (Agent.start prog).Inv :=
  ⟨rfl, Nat.zero_le _, (nomatch ·), rfl⟩

/-- An agent of the invariant that has not halted has no stop recorded. -/
theorem Agent.Inv.stop_eq_none (h : ag.Inv) (hhalted : ag.halted = false) : ag.stop = none := by
  rw [← Option.not_isSome_iff_eq_none, ← h.halted_iff, hhalted]
  decide

/-- An allowed agent that completes a command keeps its invariant. -/
theorem Agent.Inv.completed (h : ag.Inv) (hallowed : ag.allowed = true) (r : Result) :
    Agent.Inv { ag with pc := ag.pc + 1, res := ag.res ++ [r] } := by
  obtain ⟨hhalted, hpc⟩ := Agent.allowed_iff.1 hallowed
  exact {
    halted_iff := h.halted_iff
    pc_le := hpc
    halted_pc := fun hh => absurd hh (by simp [hhalted])
    log_length := by simp [h.log_length] }

/-- An allowed agent that stops keeps its invariant: its `pc` stays on the command it stopped at. -/
theorem Agent.Inv.stopped (h : ag.Inv) (hallowed : ag.allowed = true) (w : Stop) :
    Agent.Inv { ag with halted := true, stop := some w } :=
  { halted_iff := rfl
    pc_le := h.pc_le
    halted_pc := fun _ => (Agent.allowed_iff.1 hallowed).2
    log_length := h.log_length }

/-! ## Marks -/

theorem Agent.faulted_of_stop_none (h : ag.stop = none) : ag.faulted = false := by
  rw [Agent.faulted, h]

theorem Agent.wasRefused_of_stop_none (h : ag.stop = none) : ag.wasRefused = false := by
  rw [Agent.wasRefused, h]

theorem Agent.faulted_of_stop {w : Stop} (h : ag.stop = some w) : ag.faulted = w.isFault := by
  rw [Agent.faulted, h]
  cases w <;> rfl

theorem Agent.wasRefused_of_stop {w : Stop} (h : ag.stop = some w) : ag.wasRefused = !w.isFault := by
  rw [Agent.wasRefused, h]
  cases w <;> rfl

/-- An agent without either mark has no stop recorded. -/
theorem Agent.stop_eq_none_of_unmarked (hfault : ag.faulted = false) (hrefused : ag.wasRefused = false) : ag.stop = none := by
  cases h : ag.stop with
  | none => rfl
  | some w =>
    rw [Agent.faulted_of_stop h] at hfault
    rw [Agent.wasRefused_of_stop h, hfault] at hrefused
    contradiction

/-- Where an element without a property is replaced, the list has an element with it exactly when it had one or the new one has it. -/
theorem any_set_of_false {α : Type} {p : α → Bool} {l : List α} {k : Nat} {a b : α} (hk : l[k]? = some a) (ha : p a = false) :
    (l.set k b).any p = (l.any p || p b) := by
  induction l generalizing k with
  | nil => simp at hk
  | cons c l ih =>
    cases k with
    | zero =>
      obtain rfl : c = a := by simpa using hk
      simp [ha, Bool.or_comm]
    | succ k => simp [ih (k := k) (by simpa using hk), Bool.or_assoc]

/-! ## States -/

/-- Settles O45: at the start nothing is stored, no mark is raised, and no agent has run or stopped. -/
theorem sessionStartHasInvariant : Obligations.SessionStartHasInvariant := by
  have hsession (p : Params) (progs : List (List Byte)) (sch : List Nat) (draws : List Bool) :
      (State.session p progs sch draws).Inv :=
    { mem_wf := Memory.nil_wf _
      agents_ok := by
        rw [State.session_agents, List.forall_mem_map]
        exact fun prog _ => Agent.start_inv prog
      fault_iff := by simp [State.session, Agent.start, Agent.faulted]
      refused_iff := by simp [State.session, Agent.start, Agent.wasRefused] }
  exact ⟨hsession, hsession ..⟩

/-- Settles O44: the agent that moves had no stop recorded, so a mark changes exactly as that agent's record does. -/
theorem stepKeepsInvariant : Obligations.StepKeepsInvariant := by
  intro s t hs h
  obtain ⟨k, ag, ag', c, -, hag, hallowed, -, hparams, -, hagents, hmem, hcase⟩ := step_changes h
  have hinv : ag.Inv := hs.agents_ok ag (List.mem_of_getElem? hag)
  have hstop : ag.stop = none := hinv.stop_eq_none (Agent.allowed_iff.1 hallowed).1
  have hmoved : ag'.Inv ∧ t.fault = (s.fault || ag'.faulted) ∧ t.refused = (s.refused || ag'.wasRefused) := by
    rcases hcase with ⟨r, rfl, hfault, hrefused⟩ | ⟨w, rfl, hfault, hrefused⟩
    · refine ⟨hinv.completed hallowed r, ?_, ?_⟩
      · rw [hfault, Agent.faulted_of_stop_none, Bool.or_false]
        exact hstop
      · rw [hrefused, Agent.wasRefused_of_stop_none, Bool.or_false]
        exact hstop
    · refine ⟨hinv.stopped hallowed w, ?_, ?_⟩
      · rw [hfault, Agent.faulted_of_stop rfl]
      · rw [hrefused, Agent.wasRefused_of_stop rfl]
  obtain ⟨hinv', hfault, hrefused⟩ := hmoved
  exact {
    mem_wf := (step_mem hs.mem_wf hparams hmem).1
    agents_ok := fun b hb => by
      rw [hagents] at hb
      rcases List.mem_or_eq_of_mem_set hb with hb | rfl
      · exact hs.agents_ok b hb
      · exact hinv'
    fault_iff := by
      rw [hfault, hs.fault_iff, hagents, any_set_of_false hag (Agent.faulted_of_stop_none hstop)]
    refused_iff := by
      rw [hrefused, hs.refused_iff, hagents, any_set_of_false hag (Agent.wasRefused_of_stop_none hstop)] }

/-- Settles O46: without a mark no agent has halted, so each stands at the end of its list. -/
theorem endsWellIffNoMark : Obligations.EndsWellIffNoMark := by
  intro s hs hended
  refine ⟨fun ⟨hfault, hrefused, _⟩ => ⟨hfault, hrefused⟩, fun ⟨hfault, hrefused⟩ => ⟨hfault, hrefused, fun ag hag => ?_⟩⟩
  have hinv := hs.agents_ok ag hag
  have hunfaulted : ag.faulted = false :=
    Bool.eq_false_iff.2 (List.any_eq_false.1 (hs.fault_iff.symm.trans hfault) ag hag)
  have hunrefused : ag.wasRefused = false :=
    Bool.eq_false_iff.2 (List.any_eq_false.1 (hs.refused_iff.symm.trans hrefused) ag hag)
  have hhalted : ag.halted = false := by
    rw [hinv.halted_iff, Agent.stop_eq_none_of_unmarked hunfaulted hunrefused]
    rfl
  rcases Agent.allowed_eq_false_iff.1 (hended ag hag) with h | hpc
  · rw [hhalted] at h
    contradiction
  · exact le_antisymm hinv.pc_le hpc

end Sys2Proof.Machine
end

section
/-! PROOFS. Runs: what every step keeps holds at the end (60_exceptions R244, R248), each step uses up one command (70_reset R285),
and each byte read is what the last store to it put there (20_memory R58). -/

namespace Sys2Proof.Machine

variable {s t : State} {n : Nat}

/-- What every step keeps is kept over any run. -/
theorem State.Reaches.keeps {P : State → Prop} (hstep : ∀ s t, step s = .next t → P s → P t) (hr : State.Reaches n s t)
    (hs : P s) : P t := by
  induction n generalizing s with
  | zero => exact (State.reaches_zero hr).symm ▸ hs
  | succ n ih =>
    obtain ⟨u, hu, hr⟩ := State.reaches_succ hr
    exact ih hr (hstep s u hu hs)

/-! ## Stops -/

theorem step_keeps_fault (h : step s = .next t) (hs : s.fault = true) : t.fault = true := by
  obtain ⟨k, ag, ag', c, -, -, -, -, -, -, -, -, ⟨r, -, hfault, -⟩ | ⟨w, -, hfault, -⟩⟩ := step_changes h <;>
    simp [hfault, hs]

theorem step_keeps_refused (h : step s = .next t) (hs : s.refused = true) : t.refused = true := by
  obtain ⟨k, ag, ag', c, -, -, -, -, -, -, -, -, ⟨r, -, -, hrefused⟩ | ⟨w, -, -, hrefused⟩⟩ := step_changes h <;>
    simp [hrefused, hs]

/-- The agent that moves has not halted, so it is not the halted one. -/
theorem step_keeps_halted {j : Nat} {b : Agent} (h : step s = .next t) (hhalted : b.halted = true)
    (hb : s.agents[j]? = some b) : t.agents[j]? = some b := by
  obtain ⟨k, ag, ag', c, -, hag, hallowed, -, -, -, hagents, -, -⟩ := step_changes h
  have hne : k ≠ j := by
    rintro rfl
    obtain rfl : ag = b := Option.some.inj (hag.symm.trans hb)
    rw [(Agent.allowed_iff.1 hallowed).1] at hhalted
    contradiction
  rw [hagents, List.getElem?_set_ne hne, hb]

/-- Settles O43: each step keeps a raised mark, and a halted agent. -/
theorem stopsAreForever : Obligations.StopsAreForever := by
  intro n s t hr
  exact ⟨hr.keeps (P := fun u => u.fault = true) fun _ _ => step_keeps_fault,
    hr.keeps (P := fun u => u.refused = true) fun _ _ => step_keeps_refused,
    fun k ag hag hhalted =>
      hr.keeps (P := fun u => u.agents[k]? = some ag) (fun _ _ h => step_keeps_halted h hhalted) hag⟩

/-! ## The length of a run -/

/-- Replacing one element of a list changes a sum over the list by that element's part. -/
theorem sum_map_set {α : Type} (f : α → Nat) {l : List α} {k : Nat} {a : α} (hk : l[k]? = some a) (b : α) :
    ((l.set k b).map f).sum + f a = (l.map f).sum + f b := by
  induction l generalizing k with
  | nil => simp at hk
  | cons c l ih =>
    cases k with
    | zero =>
      obtain rfl : c = a := by simpa using hk
      simp only [List.set_cons_zero, List.map_cons, List.sum_cons]
      omega
    | succ k =>
      have := ih (k := k) (by simpa using hk)
      simp only [List.set_cons_succ, List.map_cons, List.sum_cons]
      omega

/-- A step uses up at least one command: its agent completes one, or has none left to run. -/
theorem step_remaining (h : step s = .next t) : t.remaining + 1 ≤ s.remaining := by
  obtain ⟨k, ag, ag', c, -, hag, hallowed, -, -, -, hagents, -, hcase⟩ := step_changes h
  obtain ⟨hhalted, hpc⟩ := Agent.allowed_iff.1 hallowed
  have hbefore : ag.remaining = ag.commands.length - ag.pc := by simp [Agent.remaining, hhalted]
  have hused : ag'.remaining + 1 ≤ ag.remaining := by
    rcases hcase with ⟨r, rfl, -⟩ | ⟨w, rfl, -⟩
    · have hafter : Agent.remaining { ag with pc := ag.pc + 1, res := ag.res ++ [r] } = ag.commands.length - (ag.pc + 1) := by
        simp [Agent.remaining, hhalted, Agent.commands]
      omega
    · have hafter : Agent.remaining { ag with halted := true, stop := some w } = 0 := rfl
      omega
  have hsum := sum_map_set Agent.remaining hag ag'
  unfold State.remaining
  rw [hagents]
  omega

/-- An agent can run no more commands than its list has. -/
theorem Agent.remaining_le (ag : Agent) : ag.remaining ≤ ag.commands.length := by
  unfold Agent.remaining
  split <;> omega

theorem State.Reaches.add_remaining_le (hr : State.Reaches n s t) : n + t.remaining ≤ s.remaining := by
  induction n generalizing s with
  | zero => rw [State.reaches_zero hr, Nat.zero_add]
  | succ n ih =>
    obtain ⟨u, hu, hr⟩ := State.reaches_succ hr
    have hfirst := step_remaining hu
    have hrest := ih hr
    omega

/-- Settles O47: each step uses up a command, and each agent has at most its list's. -/
theorem runsAreBounded : Obligations.RunsAreBounded :=
  fun _ _ _ hr => ⟨hr.add_remaining_le, List.sum_le_sum fun ag _ => ag.remaining_le⟩

/-! ## The stores of a run -/

/-- The first of the stores counts where no later one is to the address. -/
theorem lastStored_cons (st : Option (Nat × List Byte)) (stores : List (Option (Nat × List Byte))) (x : Nat) :
    lastStored (st :: stores) x = (lastStored stores x).or (storedByte st x) := by
  have hfrom (init : Option Byte) : stores.foldl (fun last st => (storedByte st x).or last) init =
      (lastStored stores x).or init := by
    unfold lastStored
    induction stores generalizing init with
    | nil => rfl
    | cons st stores ih => rw [List.foldl_cons, List.foldl_cons, ih, ih (Option.or _ none), Option.or_none, Option.or_assoc]
  rw [lastStored, List.foldl_cons, Option.or_none, hfrom]

/-- The stores of a run begin with what the item of its first step stores, and each byte is as that store leaves it. -/
theorem step_store (hm : Memory.wf s.params.defaultGain s.mem) (h : step s = .next t) :
    ∃ st, (∀ n, s.stores (n + 1) = st :: t.stores n) ∧ Memory.wf t.params.defaultGain t.mem ∧
      ∀ x, t.byteAt x = (storedByte st x).getD (s.byteAt x) := by
  obtain ⟨k, ag, -, c, hk, hag, -, hc, hparams, -, -, hmem, -⟩ := step_changes h
  have hitem : s.nextItem = some c := by
    simp only [State.nextItem, hk, State.fetch, State.grant_invoker, hag, hc]
  exact ⟨_, fun n => by simp only [State.stores, hitem, h], step_mem hm hparams hmem⟩

/-- Settles O48: by induction on the run; where a later step stores to the address that store counts, else the first step's. -/
theorem readsSeeTheLastStore : Obligations.ReadsSeeTheLastStore := by
  intro n
  induction n with
  | zero =>
    intro s t _ hr x
    rw [State.reaches_zero hr]
    rfl
  | succ n ih =>
    intro s t hm hr x
    obtain ⟨u, hu, hr⟩ := State.reaches_succ hr
    obtain ⟨st, hstores, hmu, hbytes⟩ := step_store hm hu
    rw [ih u t hmu hr x, hbytes, hstores, lastStored_cons]
    cases lastStored (u.stores n) x <;> rfl

end Sys2Proof.Machine
end
